-- ==== Sys2Proof/Word.lean ====
section
/-! DEFINITION. The machine's word types (00_scope.md R9, R15, R16). -/

namespace Sys2Proof

/-- A machine word, a register value, an address: 32 bits (R9, R16). -/
abbrev Word := BitVec 32

/-- One byte of data memory (R43). -/
abbrev Byte := BitVec 8

/-- A register index: five bits, each value naming one of x0 to x31 (R32, R115). -/
abbrev RegIdx := BitVec 5

/-- A value of the opcode field, bits 6:0 of a word (R101). -/
abbrev Opcode := BitVec 7

end Sys2Proof
end

