-- ==== Sys2Proof/Config.lean ====
section
/-! DEFINITION. What the block fixes once and for all (00_scope.md R10): the bounds of the two memories. The launch
parameters DMEM_SIZE, DMEM_INIT and CUSTOM_OPCODE are held in State; their values in State.reset stand in
Machine/Launch.lean and Decode.lean. The spec leaves no value free, so there is no opaque constant here. -/

namespace Sys2Proof

/-- The most words instruction memory can hold: IMEM_LEN <= 2^30 (R10, R341, D21). -/
def Config.maxImemWords : Nat := 1073741824

/-- The largest DMEM_SIZE: 2^32 bytes (R10, D11). -/
def Config.maxDmemSize : Nat := 4294967296

end Sys2Proof
end

