-- ==== Sys2Proof/Syntax.lean ====
section
/-! DEFINITION. The instructions: one constructor per row of spec/opcode_table.json. Operands stand in the order of the
assembly operand lists (30_encoding.md R138); immediates have the width of their encoded field, with the unencoded bit 0
of a branch or jal target included (R105, R106). -/

namespace Sys2Proof

/-- The 38 instructions (00_scope.md R2, 30_encoding.md R117). -/
inductive Instr where
  -- register-register ALU (R190 to R200)
  | add (rd rs1 rs2 : RegIdx)
  | sub (rd rs1 rs2 : RegIdx)
  | sll (rd rs1 rs2 : RegIdx)
  | slt (rd rs1 rs2 : RegIdx)
  | sltu (rd rs1 rs2 : RegIdx)
  | xor (rd rs1 rs2 : RegIdx)
  | srl (rd rs1 rs2 : RegIdx)
  | sra (rd rs1 rs2 : RegIdx)
  | or (rd rs1 rs2 : RegIdx)
  | and (rd rs1 rs2 : RegIdx)
  -- register-immediate ALU (R210 to R219)
  | addi (rd rs1 : RegIdx) (imm : BitVec 12)
  | slti (rd rs1 : RegIdx) (imm : BitVec 12)
  | sltiu (rd rs1 : RegIdx) (imm : BitVec 12)
  | xori (rd rs1 : RegIdx) (imm : BitVec 12)
  | ori (rd rs1 : RegIdx) (imm : BitVec 12)
  | andi (rd rs1 : RegIdx) (imm : BitVec 12)
  | slli (rd rs1 : RegIdx) (shamt : BitVec 5)
  | srli (rd rs1 : RegIdx) (shamt : BitVec 5)
  | srai (rd rs1 : RegIdx) (shamt : BitVec 5)
  -- loads (R230 to R235)
  | lb (rd rs1 : RegIdx) (imm : BitVec 12)
  | lh (rd rs1 : RegIdx) (imm : BitVec 12)
  | lw (rd rs1 : RegIdx) (imm : BitVec 12)
  | lbu (rd rs1 : RegIdx) (imm : BitVec 12)
  | lhu (rd rs1 : RegIdx) (imm : BitVec 12)
  -- stores (R236 to R239): data register first, then the base
  | sb (rs2 rs1 : RegIdx) (imm : BitVec 12)
  | sh (rs2 rs1 : RegIdx) (imm : BitVec 12)
  | sw (rs2 rs1 : RegIdx) (imm : BitVec 12)
  -- branches (R250 to R256): the target field with its bit 0
  | beq (rs1 rs2 : RegIdx) (target : BitVec 13)
  | bne (rs1 rs2 : RegIdx) (target : BitVec 13)
  | blt (rs1 rs2 : RegIdx) (target : BitVec 13)
  | bge (rs1 rs2 : RegIdx) (target : BitVec 13)
  | bltu (rs1 rs2 : RegIdx) (target : BitVec 13)
  | bgeu (rs1 rs2 : RegIdx) (target : BitVec 13)
  -- jumps (R260 to R262)
  | jal (rd : RegIdx) (target : BitVec 21)
  | jalr (rd rs1 : RegIdx) (imm : BitVec 12)
  -- upper immediate (R270)
  | lui (rd : RegIdx) (imm : BitVec 20)
  -- custom (R275 to R277): print's register sits in the rd field
  | halt
  | print (rs : RegIdx)
  deriving DecidableEq, Repr

/-- Why a word does not decode (30_encoding.md R118; 60_exceptions.md R302, R303). -/
inductive DecodeFault where
  /-- The word's opcode is not CUSTOM_OPCODE and the word matches no row of R117 (R302). -/
  | unsupportedOpcode
  /-- The word's opcode is CUSTOM_OPCODE and the word is no valid halt or print (R303). -/
  | unsupportedCustomOp
  deriving DecidableEq, Repr

end Sys2Proof
end

