-- ==== Sys2Proof/WellFormed.lean ====
section
/-! DEFINITION. Which instructions have an encoding. The only operand values no word carries are odd branch and jal
targets: bit 0 of the target is not encoded and is 0 (30_encoding.md R105, R106; log 9). -/

namespace Sys2Proof

/-- The instruction has an encoding: a branch or jal target is even (R105, R106). -/
def Instr.wf : Instr → Bool
  | .add _ _ _ => true
  | .sub _ _ _ => true
  | .sll _ _ _ => true
  | .slt _ _ _ => true
  | .sltu _ _ _ => true
  | .xor _ _ _ => true
  | .srl _ _ _ => true
  | .sra _ _ _ => true
  | .or _ _ _ => true
  | .and _ _ _ => true
  | .addi _ _ _ => true
  | .slti _ _ _ => true
  | .sltiu _ _ _ => true
  | .xori _ _ _ => true
  | .ori _ _ _ => true
  | .andi _ _ _ => true
  | .slli _ _ _ => true
  | .srli _ _ _ => true
  | .srai _ _ _ => true
  | .lb _ _ _ => true
  | .lh _ _ _ => true
  | .lw _ _ _ => true
  | .lbu _ _ _ => true
  | .lhu _ _ _ => true
  | .sb _ _ _ => true
  | .sh _ _ _ => true
  | .sw _ _ _ => true
  | .beq _ _ t => !t.getLsbD 0
  | .bne _ _ t => !t.getLsbD 0
  | .blt _ _ t => !t.getLsbD 0
  | .bge _ _ t => !t.getLsbD 0
  | .bltu _ _ t => !t.getLsbD 0
  | .bgeu _ _ t => !t.getLsbD 0
  | .jal _ t => !t.getLsbD 0
  | .jalr _ _ _ => true
  | .lui _ _ => true
  | .halt => true
  | .print _ => true

end Sys2Proof
end

