-- ==== Sys2Proof/Decode.lean ====
section
/-! DEFINITION. Decoding (30_encoding.md R100 to R122), then the encoder of one instruction (R141 to R150), then the
opcode table's rows. A word is 32 bits and one instruction is one word; the decoder is strict and total (R118). -/

namespace Sys2Proof

/-! Field extraction (R15, R102 to R108, R110 to R115). -/

/-- `w[6:0]` (R101). -/
def opcodeOf (w : Word) : Opcode := w.extractLsb' 0 7

/-- `w[11:7]` (R115). -/
def rdOf (w : Word) : RegIdx := w.extractLsb' 7 5

/-- `w[14:12]` (R117). -/
def funct3Of (w : Word) : BitVec 3 := w.extractLsb' 12 3

/-- `w[19:15]` (R115). -/
def rs1Of (w : Word) : RegIdx := w.extractLsb' 15 5

/-- `w[24:20]` (R115). -/
def rs2Of (w : Word) : RegIdx := w.extractLsb' 20 5

/-- `w[24:20]` as a shift amount (R115). -/
def shamtOf (w : Word) : BitVec 5 := w.extractLsb' 20 5

/-- `w[31:25]` (R117). -/
def funct7Of (w : Word) : BitVec 7 := w.extractLsb' 25 7

/-- The I-immediate's field `w[31:20]` (R103, R110). -/
def immIOf (w : Word) : BitVec 12 := w.extractLsb' 20 12

/-- The S-immediate's field `w[31:25] ‖ w[11:7]` (R104, R111). -/
def immSOf (w : Word) : BitVec 12 := w.extractLsb' 25 7 ++ w.extractLsb' 7 5

/-- The B-immediate's field `w[31] ‖ w[7] ‖ w[30:25] ‖ w[11:8] ‖ 0` (R105, R112). -/
def immBOf (w : Word) : BitVec 13 :=
  w.extractLsb' 31 1 ++ w.extractLsb' 7 1 ++ w.extractLsb' 25 6 ++ w.extractLsb' 8 4 ++ 0#1

/-- The J-immediate's field `w[31] ‖ w[19:12] ‖ w[20] ‖ w[30:21] ‖ 0` (R106, R113). -/
def immJOf (w : Word) : BitVec 21 :=
  w.extractLsb' 31 1 ++ w.extractLsb' 12 8 ++ w.extractLsb' 20 1 ++ w.extractLsb' 21 10 ++ 0#1

/-- The U-immediate's field `w[31:12]` (R107, R114). -/
def immUOf (w : Word) : BitVec 20 := w.extractLsb' 12 20

/-! Major opcodes (R116). -/

/-- OP, 0x33 (R116). -/
def opOp : Opcode := 0b0110011#7
/-- OP-IMM, 0x13 (R116). -/
def opOpImm : Opcode := 0b0010011#7
/-- LOAD, 0x03 (R116). -/
def opLoad : Opcode := 0b0000011#7
/-- STORE, 0x23 (R116). -/
def opStore : Opcode := 0b0100011#7
/-- BRANCH, 0x63 (R116). -/
def opBranch : Opcode := 0b1100011#7
/-- JAL, 0x6F (R116). -/
def opJal : Opcode := 0b1101111#7
/-- JALR, 0x67 (R116). -/
def opJalr : Opcode := 0b1100111#7
/-- LUI, 0x37 (R116). -/
def opLui : Opcode := 0b0110111#7

/-- The default of CUSTOM_OPCODE, custom-0 (R119, D6). -/
def defaultCustomOpcode : Opcode := 0b0001011#7

/-- The eight major opcodes of R116. -/
def majorOpcodes : List Opcode :=
  [opOp, opOpImm, opLoad, opStore, opBranch, opJal, opJalr, opLui]

/-- The values CUSTOM_OPCODE may take: none of the eight major opcodes, and low bits 11 (R119). -/
def validCustomOpcode (op : Opcode) : Bool :=
  !majorOpcodes.contains op && op.extractLsb' 0 2 == 0b11#2

/-! The decoder (R118). -/

/-- OP words: funct3 and the whole of funct7 select (R102, R117, R118). -/
def decodeOp (w : Word) : Except DecodeFault Instr :=
  if funct7Of w = 0b0000000#7 then
    if funct3Of w = 0b000#3 then .ok (.add (rdOf w) (rs1Of w) (rs2Of w))
    else if funct3Of w = 0b001#3 then .ok (.sll (rdOf w) (rs1Of w) (rs2Of w))
    else if funct3Of w = 0b010#3 then .ok (.slt (rdOf w) (rs1Of w) (rs2Of w))
    else if funct3Of w = 0b011#3 then .ok (.sltu (rdOf w) (rs1Of w) (rs2Of w))
    else if funct3Of w = 0b100#3 then .ok (.xor (rdOf w) (rs1Of w) (rs2Of w))
    else if funct3Of w = 0b101#3 then .ok (.srl (rdOf w) (rs1Of w) (rs2Of w))
    else if funct3Of w = 0b110#3 then .ok (.or (rdOf w) (rs1Of w) (rs2Of w))
    else .ok (.and (rdOf w) (rs1Of w) (rs2Of w))
  else if funct7Of w = 0b0100000#7 then
    if funct3Of w = 0b000#3 then .ok (.sub (rdOf w) (rs1Of w) (rs2Of w))
    else if funct3Of w = 0b101#3 then .ok (.sra (rdOf w) (rs1Of w) (rs2Of w))
    else .error .unsupportedOpcode
  else .error .unsupportedOpcode

/-- OP-IMM words: funct3 selects, and for the shifts the whole of funct7 as well (R103, R117, R118). -/
def decodeOpImm (w : Word) : Except DecodeFault Instr :=
  if funct3Of w = 0b000#3 then .ok (.addi (rdOf w) (rs1Of w) (immIOf w))
  else if funct3Of w = 0b010#3 then .ok (.slti (rdOf w) (rs1Of w) (immIOf w))
  else if funct3Of w = 0b011#3 then .ok (.sltiu (rdOf w) (rs1Of w) (immIOf w))
  else if funct3Of w = 0b100#3 then .ok (.xori (rdOf w) (rs1Of w) (immIOf w))
  else if funct3Of w = 0b110#3 then .ok (.ori (rdOf w) (rs1Of w) (immIOf w))
  else if funct3Of w = 0b111#3 then .ok (.andi (rdOf w) (rs1Of w) (immIOf w))
  else if funct3Of w = 0b001#3 then
    if funct7Of w = 0b0000000#7 then .ok (.slli (rdOf w) (rs1Of w) (shamtOf w)) else .error .unsupportedOpcode
  else
    if funct7Of w = 0b0000000#7 then .ok (.srli (rdOf w) (rs1Of w) (shamtOf w))
    else if funct7Of w = 0b0100000#7 then .ok (.srai (rdOf w) (rs1Of w) (shamtOf w))
    else .error .unsupportedOpcode

/-- LOAD words: funct3 0, 1, 2, 4, 5 (R117, R118). -/
def decodeLoad (w : Word) : Except DecodeFault Instr :=
  if funct3Of w = 0b000#3 then .ok (.lb (rdOf w) (rs1Of w) (immIOf w))
  else if funct3Of w = 0b001#3 then .ok (.lh (rdOf w) (rs1Of w) (immIOf w))
  else if funct3Of w = 0b010#3 then .ok (.lw (rdOf w) (rs1Of w) (immIOf w))
  else if funct3Of w = 0b100#3 then .ok (.lbu (rdOf w) (rs1Of w) (immIOf w))
  else if funct3Of w = 0b101#3 then .ok (.lhu (rdOf w) (rs1Of w) (immIOf w))
  else .error .unsupportedOpcode

/-- STORE words: funct3 0, 1, 2 (R117, R118). -/
def decodeStore (w : Word) : Except DecodeFault Instr :=
  if funct3Of w = 0b000#3 then .ok (.sb (rs2Of w) (rs1Of w) (immSOf w))
  else if funct3Of w = 0b001#3 then .ok (.sh (rs2Of w) (rs1Of w) (immSOf w))
  else if funct3Of w = 0b010#3 then .ok (.sw (rs2Of w) (rs1Of w) (immSOf w))
  else .error .unsupportedOpcode

/-- BRANCH words: funct3 0, 1, 4, 5, 6, 7 (R117, R118). -/
def decodeBranch (w : Word) : Except DecodeFault Instr :=
  if funct3Of w = 0b000#3 then .ok (.beq (rs1Of w) (rs2Of w) (immBOf w))
  else if funct3Of w = 0b001#3 then .ok (.bne (rs1Of w) (rs2Of w) (immBOf w))
  else if funct3Of w = 0b100#3 then .ok (.blt (rs1Of w) (rs2Of w) (immBOf w))
  else if funct3Of w = 0b101#3 then .ok (.bge (rs1Of w) (rs2Of w) (immBOf w))
  else if funct3Of w = 0b110#3 then .ok (.bltu (rs1Of w) (rs2Of w) (immBOf w))
  else if funct3Of w = 0b111#3 then .ok (.bgeu (rs1Of w) (rs2Of w) (immBOf w))
  else .error .unsupportedOpcode

/-- CUSTOM_OPCODE words: funct3 0 halts, 1 prints; `w[31:15]` must be 0, and rd as well for halt (R108, R118, D7). -/
def decodeCustom (w : Word) : Except DecodeFault Instr :=
  if funct3Of w = 0b000#3 then
    if w.extractLsb' 15 17 = 0#17 ∧ rdOf w = 0#5 then .ok .halt else .error .unsupportedCustomOp
  else if funct3Of w = 0b001#3 then
    if w.extractLsb' 15 17 = 0#17 then .ok (.print (rdOf w)) else .error .unsupportedCustomOp
  else .error .unsupportedCustomOp

/-- `decode(w)` of R118, for a machine whose CUSTOM_OPCODE is `custom`. -/
def decode (custom : Opcode) (w : Word) : Except DecodeFault Instr :=
  if opcodeOf w = custom then decodeCustom w
  else if opcodeOf w = opOp then decodeOp w
  else if opcodeOf w = opOpImm then decodeOpImm w
  else if opcodeOf w = opLoad then decodeLoad w
  else if opcodeOf w = opStore then decodeStore w
  else if opcodeOf w = opBranch then decodeBranch w
  else if opcodeOf w = opJal then .ok (.jal (rdOf w) (immJOf w))
  else if opcodeOf w = opJalr then
    if funct3Of w = 0b000#3 then .ok (.jalr (rdOf w) (rs1Of w) (immIOf w)) else .error .unsupportedOpcode
  else if opcodeOf w = opLui then .ok (.lui (rdOf w) (immUOf w))
  else .error .unsupportedOpcode

/-- The instruction in a table word of `nbits` bits, at the default CUSTOM_OPCODE, which is the table's. An instruction
is one word, and instruction memory has no byte order (R70, R100): the word is the table's number itself. -/
def decodeTableWord (nbits w : Nat) : Option Instr :=
  match decode defaultCustomOpcode (BitVec.ofNat 32 (w % 2 ^ nbits)) with
  | .ok i => some i
  | .error _ => none

/-! The encoder of one instruction (R141 to R150), format by format. -/

/-- R-type and shift-immediate words (R102, R141, R143). -/
def encodeR (f7 : BitVec 7) (rs2 rs1 : RegIdx) (f3 : BitVec 3) (rd : RegIdx) (op : Opcode) : Word :=
  f7 ++ rs2 ++ rs1 ++ f3 ++ rd ++ op

/-- I-type words (R103, R142, R144, R148). -/
def encodeI (imm : BitVec 12) (rs1 : RegIdx) (f3 : BitVec 3) (rd : RegIdx) (op : Opcode) : Word :=
  imm ++ rs1 ++ f3 ++ rd ++ op

/-- S-type words (R104, R145). -/
def encodeS (imm : BitVec 12) (rs2 rs1 : RegIdx) (f3 : BitVec 3) : Word :=
  imm.extractLsb' 5 7 ++ rs2 ++ rs1 ++ f3 ++ imm.extractLsb' 0 5 ++ opStore

/-- B-type words: `t[12] ‖ t[10:5] ‖ rs2 ‖ rs1 ‖ funct3 ‖ t[4:1] ‖ t[11] ‖ opcode` (R105, R146). -/
def encodeB (t : BitVec 13) (rs2 rs1 : RegIdx) (f3 : BitVec 3) : Word :=
  t.extractLsb' 12 1 ++ t.extractLsb' 5 6 ++ rs2 ++ rs1 ++ f3 ++ t.extractLsb' 1 4 ++ t.extractLsb' 11 1 ++ opBranch

/-- J-type words: `t[20] ‖ t[10:1] ‖ t[11] ‖ t[19:12] ‖ rd ‖ opcode` (R106, R147). -/
def encodeJ (t : BitVec 21) (rd : RegIdx) : Word :=
  t.extractLsb' 20 1 ++ t.extractLsb' 1 10 ++ t.extractLsb' 11 1 ++ t.extractLsb' 12 8 ++ rd ++ opJal

/-- U-type words (R107, R149). -/
def encodeU (imm : BitVec 20) (rd : RegIdx) : Word :=
  imm ++ rd ++ opLui

/-- Custom words: seventeen zero bits, funct3, the rd field, CUSTOM_OPCODE (R108, R150). -/
def encodeCustom (f3 : BitVec 3) (rd : RegIdx) (custom : Opcode) : Word :=
  0#17 ++ f3 ++ rd ++ custom

/-- The word of an instruction, for a machine whose CUSTOM_OPCODE is `custom` (R117, R141 to R150). Bit 0 of a branch or
jal target is not encoded. -/
def encode (custom : Opcode) : Instr → Word
  | .add rd rs1 rs2 => encodeR 0b0000000#7 rs2 rs1 0b000#3 rd opOp
  | .sub rd rs1 rs2 => encodeR 0b0100000#7 rs2 rs1 0b000#3 rd opOp
  | .sll rd rs1 rs2 => encodeR 0b0000000#7 rs2 rs1 0b001#3 rd opOp
  | .slt rd rs1 rs2 => encodeR 0b0000000#7 rs2 rs1 0b010#3 rd opOp
  | .sltu rd rs1 rs2 => encodeR 0b0000000#7 rs2 rs1 0b011#3 rd opOp
  | .xor rd rs1 rs2 => encodeR 0b0000000#7 rs2 rs1 0b100#3 rd opOp
  | .srl rd rs1 rs2 => encodeR 0b0000000#7 rs2 rs1 0b101#3 rd opOp
  | .sra rd rs1 rs2 => encodeR 0b0100000#7 rs2 rs1 0b101#3 rd opOp
  | .or rd rs1 rs2 => encodeR 0b0000000#7 rs2 rs1 0b110#3 rd opOp
  | .and rd rs1 rs2 => encodeR 0b0000000#7 rs2 rs1 0b111#3 rd opOp
  | .addi rd rs1 imm => encodeI imm rs1 0b000#3 rd opOpImm
  | .slti rd rs1 imm => encodeI imm rs1 0b010#3 rd opOpImm
  | .sltiu rd rs1 imm => encodeI imm rs1 0b011#3 rd opOpImm
  | .xori rd rs1 imm => encodeI imm rs1 0b100#3 rd opOpImm
  | .ori rd rs1 imm => encodeI imm rs1 0b110#3 rd opOpImm
  | .andi rd rs1 imm => encodeI imm rs1 0b111#3 rd opOpImm
  | .slli rd rs1 sh => encodeR 0b0000000#7 sh rs1 0b001#3 rd opOpImm
  | .srli rd rs1 sh => encodeR 0b0000000#7 sh rs1 0b101#3 rd opOpImm
  | .srai rd rs1 sh => encodeR 0b0100000#7 sh rs1 0b101#3 rd opOpImm
  | .lb rd rs1 imm => encodeI imm rs1 0b000#3 rd opLoad
  | .lh rd rs1 imm => encodeI imm rs1 0b001#3 rd opLoad
  | .lw rd rs1 imm => encodeI imm rs1 0b010#3 rd opLoad
  | .lbu rd rs1 imm => encodeI imm rs1 0b100#3 rd opLoad
  | .lhu rd rs1 imm => encodeI imm rs1 0b101#3 rd opLoad
  | .sb rs2 rs1 imm => encodeS imm rs2 rs1 0b000#3
  | .sh rs2 rs1 imm => encodeS imm rs2 rs1 0b001#3
  | .sw rs2 rs1 imm => encodeS imm rs2 rs1 0b010#3
  | .beq rs1 rs2 t => encodeB t rs2 rs1 0b000#3
  | .bne rs1 rs2 t => encodeB t rs2 rs1 0b001#3
  | .blt rs1 rs2 t => encodeB t rs2 rs1 0b100#3
  | .bge rs1 rs2 t => encodeB t rs2 rs1 0b101#3
  | .bltu rs1 rs2 t => encodeB t rs2 rs1 0b110#3
  | .bgeu rs1 rs2 t => encodeB t rs2 rs1 0b111#3
  | .jal rd t => encodeJ t rd
  | .jalr rd rs1 imm => encodeI imm rs1 0b000#3 rd opJalr
  | .lui rd imm => encodeU imm rd
  | .halt => encodeCustom 0b000#3 0#5 custom
  | .print rs => encodeCustom 0b001#3 rs custom

/-- The major opcode of an instruction (R116). -/
def Instr.majorOpcode (custom : Opcode) : Instr → Opcode
  | .add _ _ _ | .sub _ _ _ | .sll _ _ _ | .slt _ _ _ | .sltu _ _ _ | .xor _ _ _ | .srl _ _ _ | .sra _ _ _
  | .or _ _ _ | .and _ _ _ => opOp
  | .addi _ _ _ | .slti _ _ _ | .sltiu _ _ _ | .xori _ _ _ | .ori _ _ _ | .andi _ _ _
  | .slli _ _ _ | .srli _ _ _ | .srai _ _ _ => opOpImm
  | .lb _ _ _ | .lh _ _ _ | .lw _ _ _ | .lbu _ _ _ | .lhu _ _ _ => opLoad
  | .sb _ _ _ | .sh _ _ _ | .sw _ _ _ => opStore
  | .beq _ _ _ | .bne _ _ _ | .blt _ _ _ | .bge _ _ _ | .bltu _ _ _ | .bgeu _ _ _ => opBranch
  | .jal _ _ => opJal
  | .jalr _ _ _ => opJalr
  | .lui _ _ => opLui
  | .halt | .print _ => custom

/-- The match and mask of an instruction's row in spec/opcode_table.json, copied from the table and not used by the
decoder or the encoder: a statement holds the decoder against it (R117, at the default CUSTOM_OPCODE). -/
def Instr.tableRow : Instr → Word × Word
  | .add _ _ _ => (0x00000033#32, 0xFE00707F#32)
  | .sub _ _ _ => (0x40000033#32, 0xFE00707F#32)
  | .sll _ _ _ => (0x00001033#32, 0xFE00707F#32)
  | .slt _ _ _ => (0x00002033#32, 0xFE00707F#32)
  | .sltu _ _ _ => (0x00003033#32, 0xFE00707F#32)
  | .xor _ _ _ => (0x00004033#32, 0xFE00707F#32)
  | .srl _ _ _ => (0x00005033#32, 0xFE00707F#32)
  | .sra _ _ _ => (0x40005033#32, 0xFE00707F#32)
  | .or _ _ _ => (0x00006033#32, 0xFE00707F#32)
  | .and _ _ _ => (0x00007033#32, 0xFE00707F#32)
  | .addi _ _ _ => (0x00000013#32, 0x0000707F#32)
  | .slti _ _ _ => (0x00002013#32, 0x0000707F#32)
  | .sltiu _ _ _ => (0x00003013#32, 0x0000707F#32)
  | .xori _ _ _ => (0x00004013#32, 0x0000707F#32)
  | .ori _ _ _ => (0x00006013#32, 0x0000707F#32)
  | .andi _ _ _ => (0x00007013#32, 0x0000707F#32)
  | .slli _ _ _ => (0x00001013#32, 0xFE00707F#32)
  | .srli _ _ _ => (0x00005013#32, 0xFE00707F#32)
  | .srai _ _ _ => (0x40005013#32, 0xFE00707F#32)
  | .lb _ _ _ => (0x00000003#32, 0x0000707F#32)
  | .lh _ _ _ => (0x00001003#32, 0x0000707F#32)
  | .lw _ _ _ => (0x00002003#32, 0x0000707F#32)
  | .lbu _ _ _ => (0x00004003#32, 0x0000707F#32)
  | .lhu _ _ _ => (0x00005003#32, 0x0000707F#32)
  | .sb _ _ _ => (0x00000023#32, 0x0000707F#32)
  | .sh _ _ _ => (0x00001023#32, 0x0000707F#32)
  | .sw _ _ _ => (0x00002023#32, 0x0000707F#32)
  | .beq _ _ _ => (0x00000063#32, 0x0000707F#32)
  | .bne _ _ _ => (0x00001063#32, 0x0000707F#32)
  | .blt _ _ _ => (0x00004063#32, 0x0000707F#32)
  | .bge _ _ _ => (0x00005063#32, 0x0000707F#32)
  | .bltu _ _ _ => (0x00006063#32, 0x0000707F#32)
  | .bgeu _ _ _ => (0x00007063#32, 0x0000707F#32)
  | .jal _ _ => (0x0000006F#32, 0x0000007F#32)
  | .jalr _ _ _ => (0x00000067#32, 0x0000707F#32)
  | .lui _ _ => (0x00000037#32, 0x0000007F#32)
  | .halt => (0x0000000B#32, 0xFFFFFFFF#32)
  | .print _ => (0x0000100B#32, 0xFFFFF07F#32)

/-- All rows of spec/opcode_table.json as (match, mask), in the table's order. -/
def tableRows : List (Word × Word) :=
  [(0x00000033#32, 0xFE00707F#32), (0x40000033#32, 0xFE00707F#32), (0x00001033#32, 0xFE00707F#32), (0x00002033#32, 0xFE00707F#32)] ++
  [(0x00003033#32, 0xFE00707F#32), (0x00004033#32, 0xFE00707F#32), (0x00005033#32, 0xFE00707F#32), (0x40005033#32, 0xFE00707F#32)] ++
  [(0x00006033#32, 0xFE00707F#32), (0x00007033#32, 0xFE00707F#32), (0x00000013#32, 0x0000707F#32), (0x00002013#32, 0x0000707F#32)] ++
  [(0x00003013#32, 0x0000707F#32), (0x00004013#32, 0x0000707F#32), (0x00006013#32, 0x0000707F#32), (0x00007013#32, 0x0000707F#32)] ++
  [(0x00001013#32, 0xFE00707F#32), (0x00005013#32, 0xFE00707F#32), (0x40005013#32, 0xFE00707F#32), (0x00000003#32, 0x0000707F#32)] ++
  [(0x00001003#32, 0x0000707F#32), (0x00002003#32, 0x0000707F#32), (0x00004003#32, 0x0000707F#32), (0x00005003#32, 0x0000707F#32)] ++
  [(0x00000023#32, 0x0000707F#32), (0x00001023#32, 0x0000707F#32), (0x00002023#32, 0x0000707F#32), (0x00000063#32, 0x0000707F#32)] ++
  [(0x00001063#32, 0x0000707F#32), (0x00004063#32, 0x0000707F#32), (0x00005063#32, 0x0000707F#32), (0x00006063#32, 0x0000707F#32)] ++
  [(0x00007063#32, 0x0000707F#32), (0x0000006F#32, 0x0000007F#32), (0x00000067#32, 0x0000707F#32), (0x00000037#32, 0x0000007F#32)] ++
  [(0x0000000B#32, 0xFFFFFFFF#32), (0x0000100B#32, 0xFFFFF07F#32)]

end Sys2Proof
end

