-- ==== Sys2Proof/Machine/Launch.lean ====
section
/-! DEFINITION. The values State.reset gives the launch parameters that the spec leaves open (00_scope.md R10), and when
launch parameters are legal. -/

namespace Sys2Proof.Machine

/-- DMEM_SIZE in State.reset: the largest the spec allows, the whole 32-bit data address space. DESIGN CHOICE, unsafe
(log 2): the spec leaves DMEM_SIZE open. `State.load` takes any legal size. -/
def resetDmemSize : Nat := 4294967296

/-- CUSTOM_OPCODE in State.reset: the spec's default (R119; log 1). -/
def resetCustomOpcode : Opcode := defaultCustomOpcode

/-- The launch parameters a machine can be created with: at most 2^30 words (R10, R341), DMEM_SIZE at most 2^32 (R10),
and a CUSTOM_OPCODE that R119 allows. -/
def launchAllowed (words : List Word) (dmemSize : Nat) (custom : Opcode) : Bool :=
  decide (words.length ≤ Config.maxImemWords) && decide (dmemSize ≤ Config.maxDmemSize) && validCustomOpcode custom

end Sys2Proof.Machine
end

