-- ==== Sys2Proof/Machine/State.lean ====
section
/-! DEFINITION. The machine's state as plain data (10_state.md R30), the reasons a step stops, and the state after reset
(R47). -/

namespace Sys2Proof.Machine

/-- The kinds of execution fault (60_exceptions.md R301). Each ends the run with nothing of the step committed (R174). -/
inductive FaultKind where
  /-- Code 1: the word matches no instruction and its opcode is not CUSTOM_OPCODE. Raised by `step` at decode (R302).
  Safe: the spec's own fault. -/
  | unsupportedOpcode
  /-- Code 2: a CUSTOM_OPCODE word that is no valid halt or print. Raised by `step` at decode (R303). Safe: the spec's
  own fault. -/
  | unsupportedCustomOp
  /-- Code 3: a taken branch, jal or jalr to a target that is no multiple of 4. Raised by `jumpTo` (R304). Safe: the
  spec's own fault. -/
  | misalignedTarget
  /-- Code 4: a halfword or word access at an address that is no multiple of its size. Raised by `State.checkAccess`
  (R63). Safe: the spec's own fault. -/
  | misalignedAccess
  /-- Code 5: an aligned data access that reaches past DMEM_SIZE. Raised by `State.checkAccess` (R64). Safe: the spec's
  own fault. -/
  | memoryOutOfRange
  deriving DecidableEq, Repr

/-- The two terminal outcomes of a step (40_execute_cycle.md R170), in the one channel Host.Outcome has for them. -/
inductive Fault where
  /-- `Faulted(kind, pc, w)`: a fatal execution error at the instruction of address `pc` and word `w` (R170, R301).
  Raised by `step` at decode and by `State.raise`. Safe: the spec's own outcome. -/
  | faulted (kind : FaultKind) (pc w : Word)
  /-- `Halted`: normal termination, no error (R170, R306). Raised by `step` on a machine that `State.isHalted` (R172).
  Safe: the spec gives a halted machine no further step (log 4). -/
  | halted
  deriving DecidableEq, Repr

/-- Reasons an instruction has no meaning. No meaning of this model refuses. -/
inductive Refusal where
  /-- An instruction not modelled yet, by its mnemonic. Raised by no arm of `exec`: every instruction has its meaning. Safe. -/
  | notModelled (mnemonic : String)
  deriving DecidableEq, Repr

/-- Data memory's contents: (address, byte) cells in the canonical form `Memory.wf` (R43). -/
abbrev Memory := List Host.Cell

/-- The machine's state (R30). -/
structure State where
  /-- The program counter, a byte address (R35). -/
  pc : Word
  /-- The general registers x0 to x31 (R32); read and written through `State.readReg` and `State.writeReg` alone. -/
  regs : Vector Word 32
  /-- Data memory's contents (R43). -/
  dmem : Memory
  /-- DMEM_SIZE, data memory's size in bytes (R10, R43); no instruction changes it. -/
  dmemSize : Nat
  /-- Instruction memory, word i at byte address 4*i; its length is IMEM_LEN (R42); no instruction changes it. -/
  imem : List Word
  /-- `halt_flag`, the only flag (R39). -/
  haltFlag : Bool
  /-- The output stream, oldest value first (R44). -/
  out : List Word
  /-- CUSTOM_OPCODE (R119), the model's own field (log 1); no instruction changes it. -/
  customOpcode : Opcode
  deriving DecidableEq, Repr

/-- The machine right after reset (R47, R340) with no program loaded: pc and every register 0, the halt flag false, no
output, empty instruction memory, and the launch parameters of Machine/Launch.lean with DMEM_INIT all zero (log 2, 3, 6).
`State.load` is reset with a program and any launch parameters. -/
def State.reset : State where
  pc := 0#32
  regs := Vector.replicate 32 0#32
  dmem := []
  dmemSize := resetDmemSize
  imem := []
  haltFlag := false
  out := []
  customOpcode := resetCustomOpcode

end Sys2Proof.Machine
end

