-- ==== Sys2Proof/Machine/Ops.lean ====
section
/-! DEFINITION. The named operations over registers, data memory, instruction memory, control and faults
(00_scope.md R21 to R24; 10_state.md R32; 20_memory.md R60 to R64; 40_execute_cycle.md R171, R172). -/

namespace Sys2Proof.Machine

/-- What a step answers. -/
abbrev Answer := Host.Outcome State Fault Refusal

/-! Registers (R21, R32). -/

/-- `read_register(i)`: index 0 reads as 0 (R32). -/
def State.readReg (s : State) (i : RegIdx) : Word :=
  if i = 0#5 then 0#32 else s.regs[i.toNat]'(i.isLt)

/-- `write_register(i, v)`: a no-op at index 0 (R32). -/
def State.writeReg (s : State) (i : RegIdx) (v : Word) : State :=
  if i = 0#5 then s else { s with regs := s.regs.set i.toNat v i.isLt }

/-! Control and output (R23). -/

/-- `pc <- target` (R23). -/
def State.setPc (s : State) (t : Word) : State := { s with pc := t }

/-- `pc + 4` modulo 2^32: the sequential next address and the link value (R36, R38). -/
def State.nextPc (s : State) : Word := s.pc + 4#32

/-- `advance_pc` (R23, R37). -/
def State.advancePc (s : State) : State := s.setPc s.nextPc

/-- `set_halted()` (R23, R39). -/
def State.setHalted (s : State) : State := { s with haltFlag := true }

/-- `emit(v)` (R23, R44). -/
def State.emit (s : State) (v : Word) : State := { s with out := s.out ++ [v] }

/-! Faults. The hardware has no trap mechanism (R300): no handler runs and nothing is saved in the state. What "taking an
exception" is on other machines is here the end of the run with the outcome `Faulted(kind, pc, w)`. -/

/-- `raise Fault(kind)` while instruction `i` executes: `Faulted(kind, pc, w)` with the instruction's address and word
(R24, R170, R301; log 5). No state follows: nothing of the step is committed (R174). -/
def State.raise (s : State) (kind : FaultKind) (i : Instr) : Answer :=
  .fault (.faulted kind s.pc (encode s.customOpcode i))

/-- The numeric code of a fault kind (R301). -/
def FaultKind.code : FaultKind → Nat
  | .unsupportedOpcode => 1
  | .unsupportedCustomOp => 2
  | .misalignedTarget => 3
  | .misalignedAccess => 4
  | .memoryOutOfRange => 5

/-- The fault kind of a word that does not decode (R118, R302, R303). -/
def faultOfDecode : DecodeFault → FaultKind
  | .unsupportedOpcode => .unsupportedOpcode
  | .unsupportedCustomOp => .unsupportedCustomOp

/-! Data memory (R43, R60 to R64). -/

/-- What an address that the cell list does not hold reads as (log 3). -/
def Memory.unlisted : Byte := 0#8

/-- The byte at an address (R43). -/
def Memory.readByte : Memory → Nat → Byte
  | [], _ => Memory.unlisted
  | (a', b) :: rest, a => if a' = a then b else Memory.readByte rest a

/-- `dmem[a] <- b`, keeping the cells' canonical form: sorted, and no cell that holds what an unlisted address reads as. -/
def Memory.writeByte : Memory → Nat → Byte → Memory
  | [], a, b => if b = Memory.unlisted then [] else [(a, b)]
  | (a', b') :: rest, a, b =>
    if a < a' then
      if b = Memory.unlisted then (a', b') :: rest else (a, b) :: (a', b') :: rest
    else if a = a' then
      if b = Memory.unlisted then rest else (a, b) :: rest
    else (a', b') :: Memory.writeByte rest a b

/-- The cells stand in strictly rising address order, from at least `low`, and none holds the unlisted byte. -/
def Memory.wfFrom : Nat → Memory → Bool
  | _, [] => true
  | low, (a, b) :: rest => decide (low ≤ a) && !(b == Memory.unlisted) && Memory.wfFrom (a + 1) rest

/-- The canonical form: equal memories are equal lists. -/
def Memory.wf (m : Memory) : Bool := Memory.wfFrom 0 m

/-- Every listed address is below `size` (R68: nothing lies outside data memory). -/
def Memory.within (size : Nat) (m : Memory) : Bool := m.all fun c => decide (c.1 < size)

/-- The cells of the bytes `f base, f (base + 1), ...`, `n` of them. -/
def Memory.ofBytesFrom (f : Nat → Byte) : Nat → Nat → Memory
  | _, 0 => []
  | base, n + 1 =>
    if f base = Memory.unlisted then Memory.ofBytesFrom f (base + 1) n
    else (base, f base) :: Memory.ofBytesFrom f (base + 1) n

/-- Data memory of `size` bytes whose byte at each address `a` is `f a`: the contents DMEM_INIT gives (R10, R47). -/
def Memory.ofBytes (size : Nat) (f : Nat → Byte) : Memory := Memory.ofBytesFrom f 0 size

/-- The three access widths (R62). -/
inductive Width where
  | byte
  | half
  | word
  deriving DecidableEq, Repr

/-- The width in bytes (R62). -/
def widthBytes : Width → Nat
  | .byte => 1
  | .half => 2
  | .word => 4

/-- The width in bits. -/
abbrev widthBits : Width → Nat
  | .byte => 8
  | .half => 16
  | .word => 32

/-- The bytes from `a` on in little-endian order, the lowest address least significant (R60, D12). -/
def Memory.read (m : Memory) (a : Nat) : (n : Width) → BitVec (widthBits n)
  | .byte => m.readByte a
  | .half => m.readByte (a + 1) ++ m.readByte a
  | .word => m.readByte (a + 3) ++ m.readByte (a + 2) ++ m.readByte (a + 1) ++ m.readByte a

/-- `dmem[a+k] <- v[8k+7:8k]` for k below the width (R61, D12). -/
def Memory.write (m : Memory) (a : Nat) (v : Word) : Width → Memory
  | .byte => m.writeByte a (v.extractLsb' 0 8)
  | .half => (m.writeByte a (v.extractLsb' 0 8)).writeByte (a + 1) (v.extractLsb' 8 8)
  | .word =>
    (((m.writeByte a (v.extractLsb' 0 8)).writeByte (a + 1) (v.extractLsb' 8 8)).writeByte (a + 2)
      (v.extractLsb' 16 8)).writeByte (a + 3) (v.extractLsb' 24 8)

/-- The checks of a data access: alignment first (R63), then range, compared as unbounded integers (R64); the order is
R308's. `none` when the access may go ahead. -/
def State.checkAccess (s : State) (ea : Word) (n : Width) : Option FaultKind :=
  if ea.toNat % widthBytes n ≠ 0 then some .misalignedAccess
  else if ea.toNat + widthBytes n > s.dmemSize then some .memoryOutOfRange
  else none

/-- `MemRead(addr, n)` (R22, R60). -/
def State.memRead (s : State) (ea : Word) (n : Width) : Except FaultKind (BitVec (widthBits n)) :=
  match s.checkAccess ea n with
  | some k => .error k
  | none => .ok (s.dmem.read ea.toNat n)

/-- `MemWrite(addr, n, v)` (R22, R61): on a fault nothing is written. -/
def State.memWrite (s : State) (ea : Word) (n : Width) (v : Word) : Except FaultKind State :=
  match s.checkAccess ea n with
  | some k => .error k
  | none => .ok { s with dmem := s.dmem.write ea.toNat v n }

/-! Control transfer (R250, R260). -/

/-- The address is a multiple of 4 (R35). -/
def aligned4 (t : Word) : Bool := t.toNat % 4 == 0

/-- The transfer of instruction `i` to `t`: `MisalignedTarget` with nothing committed when `t` is no multiple of 4, else
the state `after` (the state with i's register write) with pc at `t` (R250, R260, D4). -/
def State.jumpTo (s : State) (i : Instr) (t : Word) (after : State) : Answer :=
  if aligned4 t then .next (after.setPc t) else s.raise .misalignedTarget i

/-! Instruction memory and the end of a run (R42, R171, R172). -/

/-- IMEM_LEN (R10). -/
def State.imemLen (s : State) : Nat := s.imem.length

/-- `is_halted` (R171). -/
def State.isHalted (s : State) : Bool := s.haltFlag || decide (4 * s.imemLen ≤ s.pc.toNat)

/-- The word at the program counter, `imem[u(pc) / 4]`; `none` past the end (R172; log 8). -/
def State.fetch (s : State) : Option Word := s.imem[s.pc.toNat / 4]?

/-- Instruction memory with `w` as word `n`; words missing below it are zero words, which decode to no instruction. Used
by `State.withFetchWord` alone (log 6). -/
def placeWord : List Word → Nat → Word → List Word
  | [], 0, w => [w]
  | _ :: rest, 0, w => w :: rest
  | [], n + 1, w => 0#32 :: placeWord [] n w
  | x :: rest, n + 1, w => x :: placeWord rest n w

end Sys2Proof.Machine
end

