-- ==== Sys2Proof/Machine/Operands.lean ====
section
/-! DEFINITION. Operand forms: the immediates as 32-bit values (30_encoding.md R110 to R115), the effective address
(43_load_store.md R230, R236) and the extension of a loaded value. -/

namespace Sys2Proof.Machine

/-- The I- and S-immediate as a 32-bit value: `sext_32` of the 12-bit field (R17, R110, R111). -/
def sextImm12 (imm : BitVec 12) : Word := imm.signExtend 32

/-- The absolute branch target: `sext_32` of the 13-bit field (R112, D1, D2). -/
def branchTarget (t : BitVec 13) : Word := t.signExtend 32

/-- The absolute jal target: `sext_32` of the 21-bit field (R113, D1, D2). -/
def jalTarget (t : BitVec 21) : Word := t.signExtend 32

/-- The U-immediate: the 20-bit field over twelve zero bits (R114). -/
def upperImm (imm : BitVec 20) : Word := imm ++ 0#12

/-- The shift amount of a shift-immediate instruction, unsigned (R115). -/
def shamtAmount (sh : BitVec 5) : Nat := sh.toNat

/-- The shift amount of a register shift: the low five bits of the operand (R193, D16). -/
def regShiftAmount (v : Word) : Nat := (v.extractLsb' 0 5).toNat

/-- The effective address `x[rs1] + sext_32(imm)` modulo 2^32 (R230, R236, D15); jalr's target as well (R262, D3). -/
def State.effAddr (s : State) (rs1 : RegIdx) (imm : BitVec 12) : Word :=
  s.readReg rs1 + sextImm12 imm

/-- The extension of a loaded value to 32 bits: `sext_32` for lb, lh and lw, `zext_32` for lbu and lhu (R17, R230). -/
def extendLoaded {k : Nat} (signed : Bool) (v : BitVec k) : Word :=
  if signed then v.signExtend 32 else v.setWidth 32

end Sys2Proof.Machine
end

