-- ==== Sys2Proof/Machine/Flags.lean ====
section
/-! DEFINITION. The hardware has no condition codes: the only flag is halt_flag (10_state.md R39), set by
`State.setHalted`. What another machine would compute into flags is computed here from the operands: the comparisons of
slt, slti, sltu, sltiu and of the six branches (00_scope.md R18; 44_branch.md R251 to R256). -/

namespace Sys2Proof.Machine

/-- `bool32(c)`: 1 when `c` holds, else 0 (R18). -/
def bool32 (c : Bool) : Word := if c then 1#32 else 0#32

/-- `a <s b`: two's-complement less-than (R18). -/
def ltSigned (a b : Word) : Bool := decide (a.toInt < b.toInt)

/-- `a <u b`: unsigned less-than (R18). -/
def ltUnsigned (a b : Word) : Bool := decide (a.toNat < b.toNat)

/-- beq's condition (R251). -/
def condEq (a b : Word) : Bool := a == b

/-- bne's condition (R252). -/
def condNe (a b : Word) : Bool := !(a == b)

/-- blt's condition (R253). -/
def condLt (a b : Word) : Bool := ltSigned a b

/-- bge's condition (R254). -/
def condGe (a b : Word) : Bool := !ltSigned a b

/-- bltu's condition (R255). -/
def condLtu (a b : Word) : Bool := ltUnsigned a b

/-- bgeu's condition (R256). -/
def condGeu (a b : Word) : Bool := !ltUnsigned a b

end Sys2Proof.Machine
end

