-- ==== Sys2Proof/Machine/AluReg.lean ====
section
/-! DEFINITION. Register-register ALU instructions (41_alu_register.md R190 to R201). -/

namespace Sys2Proof.Machine

/-- The common frame: both operands are read, `f` of them goes to rd, pc advances; never a fault (R175, R190). -/
def State.aluReg (s : State) (f : Word → Word → Word) (rd rs1 rs2 : RegIdx) : Answer :=
  .next (s.writeReg rd (f (s.readReg rs1) (s.readReg rs2))).advancePc

/-- `a << k`, zeros filled (R18). -/
def shiftLeft (a : Word) (k : Nat) : Word := a <<< k

/-- `a >>u k`, zeros filled (R18). -/
def shiftRightLogical (a : Word) (k : Nat) : Word := a >>> k

/-- `a >>s k`, copies of bit 31 filled (R18). -/
def shiftRightArith (a : Word) (k : Nat) : Word := a.sshiftRight k

/-- R191. -/
def execAdd (rd rs1 rs2 : RegIdx) (s : State) : Answer := s.aluReg (fun a b => a + b) rd rs1 rs2

/-- R192. -/
def execSub (rd rs1 rs2 : RegIdx) (s : State) : Answer := s.aluReg (fun a b => a - b) rd rs1 rs2

/-- R193. -/
def execSll (rd rs1 rs2 : RegIdx) (s : State) : Answer :=
  s.aluReg (fun a b => shiftLeft a (regShiftAmount b)) rd rs1 rs2

/-- R194. -/
def execSlt (rd rs1 rs2 : RegIdx) (s : State) : Answer :=
  s.aluReg (fun a b => bool32 (ltSigned a b)) rd rs1 rs2

/-- R195. -/
def execSltu (rd rs1 rs2 : RegIdx) (s : State) : Answer :=
  s.aluReg (fun a b => bool32 (ltUnsigned a b)) rd rs1 rs2

/-- R196. -/
def execXor (rd rs1 rs2 : RegIdx) (s : State) : Answer := s.aluReg (fun a b => a ^^^ b) rd rs1 rs2

/-- R197. -/
def execSrl (rd rs1 rs2 : RegIdx) (s : State) : Answer :=
  s.aluReg (fun a b => shiftRightLogical a (regShiftAmount b)) rd rs1 rs2

/-- R198. -/
def execSra (rd rs1 rs2 : RegIdx) (s : State) : Answer :=
  s.aluReg (fun a b => shiftRightArith a (regShiftAmount b)) rd rs1 rs2

/-- R199. -/
def execOr (rd rs1 rs2 : RegIdx) (s : State) : Answer := s.aluReg (fun a b => a ||| b) rd rs1 rs2

/-- R200. -/
def execAnd (rd rs1 rs2 : RegIdx) (s : State) : Answer := s.aluReg (fun a b => a &&& b) rd rs1 rs2

end Sys2Proof.Machine
end

