-- ==== Sys2Proof/Machine/AluImm.lean ====
section
/-! DEFINITION. Register-immediate ALU instructions (42_alu_immediate.md R210 to R219). -/

namespace Sys2Proof.Machine

/-- The common frame: `f` of x[rs1] and the immediate goes to rd, pc advances; never a fault (R175, R210). -/
def State.aluImm (s : State) (f : Word → Word → Word) (rd rs1 : RegIdx) (imm : BitVec 12) : Answer :=
  .next (s.writeReg rd (f (s.readReg rs1) (sextImm12 imm))).advancePc

/-- The shifts' frame: the amount is `w[24:20]`, unsigned (R210, R217 to R219). -/
def State.aluShift (s : State) (f : Word → Nat → Word) (rd rs1 : RegIdx) (sh : BitVec 5) : Answer :=
  .next (s.writeReg rd (f (s.readReg rs1) (shamtAmount sh))).advancePc

/-- R211. -/
def execAddi (rd rs1 : RegIdx) (imm : BitVec 12) (s : State) : Answer := s.aluImm (fun a i => a + i) rd rs1 imm

/-- R212. -/
def execSlti (rd rs1 : RegIdx) (imm : BitVec 12) (s : State) : Answer :=
  s.aluImm (fun a i => bool32 (ltSigned a i)) rd rs1 imm

/-- R213: the immediate is sign-extended first, then compared as unsigned. -/
def execSltiu (rd rs1 : RegIdx) (imm : BitVec 12) (s : State) : Answer :=
  s.aluImm (fun a i => bool32 (ltUnsigned a i)) rd rs1 imm

/-- R214. -/
def execXori (rd rs1 : RegIdx) (imm : BitVec 12) (s : State) : Answer := s.aluImm (fun a i => a ^^^ i) rd rs1 imm

/-- R215. -/
def execOri (rd rs1 : RegIdx) (imm : BitVec 12) (s : State) : Answer := s.aluImm (fun a i => a ||| i) rd rs1 imm

/-- R216. -/
def execAndi (rd rs1 : RegIdx) (imm : BitVec 12) (s : State) : Answer := s.aluImm (fun a i => a &&& i) rd rs1 imm

/-- R217. -/
def execSlli (rd rs1 : RegIdx) (sh : BitVec 5) (s : State) : Answer := s.aluShift shiftLeft rd rs1 sh

/-- R218. -/
def execSrli (rd rs1 : RegIdx) (sh : BitVec 5) (s : State) : Answer := s.aluShift shiftRightLogical rd rs1 sh

/-- R219. -/
def execSrai (rd rs1 : RegIdx) (sh : BitVec 5) (s : State) : Answer := s.aluShift shiftRightArith rd rs1 sh

end Sys2Proof.Machine
end

