-- ==== Sys2Proof/Machine/Branch.lean ====
section
/-! DEFINITION. Conditional branches (44_branch.md R250 to R256). -/

namespace Sys2Proof.Machine

/-- The common frame (R250): when `cond` holds, transfer to the absolute target, which faults if it is no multiple of 4;
else advance, whatever the target is. -/
def State.branchOp (s : State) (i : Instr) (cond : Word → Word → Bool) (rs1 rs2 : RegIdx) (t : BitVec 13) : Answer :=
  if cond (s.readReg rs1) (s.readReg rs2) then s.jumpTo i (branchTarget t) s else .next s.advancePc

/-- R251. -/
def execBeq (rs1 rs2 : RegIdx) (t : BitVec 13) (s : State) : Answer :=
  s.branchOp (.beq rs1 rs2 t) condEq rs1 rs2 t

/-- R252. -/
def execBne (rs1 rs2 : RegIdx) (t : BitVec 13) (s : State) : Answer :=
  s.branchOp (.bne rs1 rs2 t) condNe rs1 rs2 t

/-- R253. -/
def execBlt (rs1 rs2 : RegIdx) (t : BitVec 13) (s : State) : Answer :=
  s.branchOp (.blt rs1 rs2 t) condLt rs1 rs2 t

/-- R254. -/
def execBge (rs1 rs2 : RegIdx) (t : BitVec 13) (s : State) : Answer :=
  s.branchOp (.bge rs1 rs2 t) condGe rs1 rs2 t

/-- R255. -/
def execBltu (rs1 rs2 : RegIdx) (t : BitVec 13) (s : State) : Answer :=
  s.branchOp (.bltu rs1 rs2 t) condLtu rs1 rs2 t

/-- R256. -/
def execBgeu (rs1 rs2 : RegIdx) (t : BitVec 13) (s : State) : Answer :=
  s.branchOp (.bgeu rs1 rs2 t) condGeu rs1 rs2 t

end Sys2Proof.Machine
end

