-- ==== Sys2Proof/Machine/Custom.lean ====
section
/-! DEFINITION. The custom operations halt and print (47_custom.md R275 to R277). -/

namespace Sys2Proof.Machine

/-- R276: the halt flag is set; pc and everything else stay. -/
def execHalt (s : State) : Answer := .next s.setHalted

/-- R277: the register named by the rd field is read and appended to the output stream; pc advances; no register is
written. -/
def execPrint (rs : RegIdx) (s : State) : Answer := .next (s.emit (s.readReg rs)).advancePc

end Sys2Proof.Machine
end

