-- ==== Sys2Proof/Machine/Jump.lean ====
section
/-! DEFINITION. Unconditional jumps (45_jump.md R260 to R262). -/

namespace Sys2Proof.Machine

/-- R261: the link value `pc + 4` goes to rd and pc to the absolute target; neither when the target is no multiple of 4. -/
def execJal (rd : RegIdx) (t : BitVec 21) (s : State) : Answer :=
  s.jumpTo (.jal rd t) (jalTarget t) (s.writeReg rd s.nextPc)

/-- R262: the target is `x[rs1] + sext_32(imm)`, x[rs1] read before the link is written, bit 0 not cleared (D3). -/
def execJalr (rd rs1 : RegIdx) (imm : BitVec 12) (s : State) : Answer :=
  s.jumpTo (.jalr rd rs1 imm) (s.effAddr rs1 imm) (s.writeReg rd s.nextPc)

end Sys2Proof.Machine
end

