-- ==== Sys2Proof/Machine/LoadStore.lean ====
section
/-! DEFINITION. Loads and stores (43_load_store.md R230 to R239). -/

namespace Sys2Proof.Machine

/-- The common frame of loads (R230): instruction `i` reads `n` bytes at the effective address, extends them into rd and
advances pc. On a fault nothing is written. A load to x0 still reads, and still can fault (R121). -/
def State.loadOp (s : State) (i : Instr) (n : Width) (signed : Bool) (rd rs1 : RegIdx) (imm : BitVec 12) : Answer :=
  match s.memRead (s.effAddr rs1 imm) n with
  | .error k => s.raise k i
  | .ok v => .next (s.writeReg rd (extendLoaded signed v)).advancePc

/-- The common frame of stores (R236): instruction `i` writes the low bytes of x[rs2] at the effective address and
advances pc. On a fault nothing is written. -/
def State.storeOp (s : State) (i : Instr) (n : Width) (rs2 rs1 : RegIdx) (imm : BitVec 12) : Answer :=
  match s.memWrite (s.effAddr rs1 imm) n (s.readReg rs2) with
  | .error k => s.raise k i
  | .ok t => .next t.advancePc

/-- R231. -/
def execLb (rd rs1 : RegIdx) (imm : BitVec 12) (s : State) : Answer :=
  s.loadOp (.lb rd rs1 imm) .byte true rd rs1 imm

/-- R232. -/
def execLh (rd rs1 : RegIdx) (imm : BitVec 12) (s : State) : Answer :=
  s.loadOp (.lh rd rs1 imm) .half true rd rs1 imm

/-- R233. -/
def execLw (rd rs1 : RegIdx) (imm : BitVec 12) (s : State) : Answer :=
  s.loadOp (.lw rd rs1 imm) .word true rd rs1 imm

/-- R234. -/
def execLbu (rd rs1 : RegIdx) (imm : BitVec 12) (s : State) : Answer :=
  s.loadOp (.lbu rd rs1 imm) .byte false rd rs1 imm

/-- R235. -/
def execLhu (rd rs1 : RegIdx) (imm : BitVec 12) (s : State) : Answer :=
  s.loadOp (.lhu rd rs1 imm) .half false rd rs1 imm

/-- R237. -/
def execSb (rs2 rs1 : RegIdx) (imm : BitVec 12) (s : State) : Answer :=
  s.storeOp (.sb rs2 rs1 imm) .byte rs2 rs1 imm

/-- R238. -/
def execSh (rs2 rs1 : RegIdx) (imm : BitVec 12) (s : State) : Answer :=
  s.storeOp (.sh rs2 rs1 imm) .half rs2 rs1 imm

/-- R239. -/
def execSw (rs2 rs1 : RegIdx) (imm : BitVec 12) (s : State) : Answer :=
  s.storeOp (.sw rs2 rs1 imm) .word rs2 rs1 imm

end Sys2Proof.Machine
end

