-- ==== Sys2Proof/Machine/UpperImm.lean ====
section
/-! DEFINITION. Upper immediate (46_upper_immediate.md R270). -/

namespace Sys2Proof.Machine

/-- R270: the immediate over twelve zero bits goes to rd; pc advances (D19). -/
def execLui (rd : RegIdx) (imm : BitVec 20) (s : State) : Answer :=
  .next (s.writeReg rd (upperImm imm)).advancePc

end Sys2Proof.Machine
end

