-- ==== Sys2Proof/Machine/Step.lean ====
section
/-! DEFINITION. The step (40_execute_cycle.md R172), and the state in which the next step runs a given word. -/

namespace Sys2Proof.Machine

/-- One step (R172): a halted machine answers `Halted`; else the word at pc is fetched and decoded, a word that does not
decode is `Faulted` with its kind, pc and word, and an instruction is executed. A fetch past the end of instruction
memory is `Halted` as well (R306); `State.isHalted` has answered it before. -/
def step (s : State) : Host.Outcome State Fault Refusal :=
  if s.isHalted then .fault .halted
  else
    match s.fetch with
    | none => .fault .halted
    | some w =>
      match decode s.customOpcode w with
      | .error k => .fault (.faulted (faultOfDecode k) s.pc w)
      | .ok i => exec i s

/-- `s` with the table word `w` of `nbits` bits at the program counter, and running: instruction memory reaches the
program counter and holds the word there, and the halt flag is false (log 6). -/
def State.withFetchWord (s : State) (nbits w : Nat) : State :=
  { s with
    imem := placeWord s.imem (s.pc.toNat / 4) (BitVec.ofNat 32 (w % 2 ^ nbits))
    haltFlag := false }

end Sys2Proof.Machine
end

