-- ==== Sys2Proof/Machine/Text.lean ====
section
/-! DEFINITION. Text as lists of characters, for the loader and the assembler: whitespace, trimming, lines and tokens
(30_encoding.md R131, R136; 70_reset_and_hazards.md R341). -/

namespace Sys2Proof.Machine

/-- The characters that count as whitespace: space, tab, line feed, vertical tab, form feed, carriage return. PRESUMED
(log 10). -/
def isSpaceChar (c : Char) : Bool := c.toNat == 32 || (decide (9 ≤ c.toNat) && decide (c.toNat ≤ 13))

/-- A decimal digit (R137). -/
def isDigitChar (c : Char) : Bool := decide (48 ≤ c.toNat) && decide (c.toNat ≤ 57)

/-- A letter `A` to `Z` or `a` to `z` (R131). -/
def isLetterChar (c : Char) : Bool :=
  (decide (65 ≤ c.toNat) && decide (c.toNat ≤ 90)) || (decide (97 ≤ c.toNat) && decide (c.toNat ≤ 122))

/-- The text without its leading and trailing whitespace (R131, R341). -/
def trimText (t : List Char) : List Char :=
  ((t.dropWhile isSpaceChar).reverse.dropWhile isSpaceChar).reverse

/-- The lines of a text, separated by line feeds; a text that ends in a line feed has an empty last line (log 11). -/
def splitLines : List Char → List (List Char)
  | [] => [[]]
  | c :: cs =>
    if c = '\n' then [] :: splitLines cs
    else
      match splitLines cs with
      | [] => [[c]]
      | l :: ls => (c :: l) :: ls

/-- The tokens of a line, `cur` being the characters of the token under way, last first. -/
def tokensFrom : List Char → List Char → List (List Char)
  | [], cur => if cur = [] then [] else [cur.reverse]
  | c :: cs, cur =>
    if isSpaceChar c then
      if cur = [] then tokensFrom cs [] else cur.reverse :: tokensFrom cs []
    else tokensFrom cs (c :: cur)

/-- The line split at runs of whitespace (R136). -/
def tokensOf (line : List Char) : List (List Char) := tokensFrom line []

/-- The number that decimal digits write. -/
def decimalValue (ds : List Char) : Nat := ds.foldl (fun n c => 10 * n + (c.toNat - 48)) 0

/-- The number that binary digits write, most significant first (R341). -/
def binaryValue (ds : List Char) : Nat := ds.foldl (fun n c => 2 * n + (c.toNat - 48)) 0

end Sys2Proof.Machine
end

