-- ==== Sys2Proof/Machine/Assembler.lean ====
section
/-! DEFINITION. The encoder in the assembler direction (30_encoding.md R130 to R155): register names, lines, pass 1, the
symbol table, tokens, operands, pass 2 and the output text. Its words come from `encode` (Decode.lean). -/

namespace Sys2Proof.Machine

/-- The encoder's errors (R151). -/
inductive AsmErrorKind where
  /-- The mnemonic is not one of the 38 (R135). -/
  | unknownOpcode
  /-- A register operand is no register name (R130). -/
  | unknownRegister
  /-- A target is a label that no line defines (R134). -/
  | undefinedSymbol
  /-- Wrong operand count, trailing comma, bad immediate or target value, bad or duplicate label (R131, R132, R136, R139, R140). -/
  | malformedLine
  deriving DecidableEq, Repr

/-- An error with the number of its line, counted from 1 (R151). -/
structure AsmError where
  line : Nat
  kind : AsmErrorKind
  deriving DecidableEq, Repr

/-! Register names (R33, R130). -/

/-- The numeric name of a register: `x` and the decimal index without leading zeros (R130). -/
def numericName (i : RegIdx) : List Char :=
  if i.toNat < 10 then ['x', Char.ofNat (48 + i.toNat)]
  else ['x', Char.ofNat (48 + i.toNat / 10), Char.ofNat (48 + i.toNat % 10)]

/-- The ABI names with their indices (R33). -/
def abiNames : List (List Char × RegIdx) :=
  [("zero".toList, 0#5), ("ra".toList, 1#5), ("sp".toList, 2#5), ("gp".toList, 3#5), ("tp".toList, 4#5),
   ("t0".toList, 5#5), ("t1".toList, 6#5), ("t2".toList, 7#5), ("s0".toList, 8#5), ("fp".toList, 8#5), ("s1".toList, 9#5)] ++
  [("a0".toList, 10#5), ("a1".toList, 11#5), ("a2".toList, 12#5), ("a3".toList, 13#5), ("a4".toList, 14#5),
   ("a5".toList, 15#5), ("a6".toList, 16#5), ("a7".toList, 17#5)] ++
  [("s2".toList, 18#5), ("s3".toList, 19#5), ("s4".toList, 20#5), ("s5".toList, 21#5), ("s6".toList, 22#5),
   ("s7".toList, 23#5), ("s8".toList, 24#5), ("s9".toList, 25#5), ("s10".toList, 26#5), ("s11".toList, 27#5)] ++
  [("t3".toList, 28#5), ("t4".toList, 29#5), ("t5".toList, 30#5), ("t6".toList, 31#5)]

/-- All register names with their indices. -/
def registerNames : List (List Char × RegIdx) :=
  (List.range 32).map (fun n => (numericName (BitVec.ofNat 5 n), BitVec.ofNat 5 n)) ++ abiNames

/-- The value a name is listed with, the first one. -/
def lookupName {α : Type} (name : List Char) : List (List Char × α) → Option α
  | [] => none
  | (n, v) :: rest => if n = name then some v else lookupName name rest

/-- `resolve_reg(name)` (R130). -/
def resolveReg (name : List Char) : Except AsmErrorKind RegIdx :=
  match lookupName name registerNames with
  | some i => .ok i
  | none => .error .unknownRegister

/-! Lines (R131) and the symbol table (R133, R134). -/

/-- What a source line is (R131). -/
inductive SourceLine where
  | blank
  | label (name : List Char)
  /-- An instruction line's tokens, the mnemonic first. -/
  | instruction (tokens : List (List Char))
  /-- A line that ends in a colon without an identifier before it. -/
  | malformed
  deriving DecidableEq, Repr

/-- A character an identifier may begin with: a letter, underscore or dot (R131). -/
def isIdentStart (c : Char) : Bool := isLetterChar c || c == '_' || c == '.'

/-- A character an identifier may go on with (R131). -/
def isIdentRest (c : Char) : Bool := isIdentStart c || isDigitChar c

/-- An identifier (R131). -/
def isIdentifier : List Char → Bool
  | [] => false
  | c :: cs => isIdentStart c && cs.all isIdentRest

/-- The kind of a source line (R131). -/
def classifyLine (line : List Char) : SourceLine :=
  let t := trimText line
  if t = [] then .blank
  else if t.getLast? = some ':' then
    if isIdentifier t.dropLast then .label t.dropLast else .malformed
  else .instruction (tokensOf t)

/-- The symbol table: label names with their 32-bit byte addresses, read by lookup alone (R133). -/
abbrev SymbolTable := List (List Char × Word)

/-- `define(label, address)` (R133). -/
def defineSymbol (name : List Char) (addr : Word) (syms : SymbolTable) : SymbolTable := (name, addr) :: syms

/-- `resolve_sym(label)` (R134). -/
def resolveSym (syms : SymbolTable) (name : List Char) : Except AsmErrorKind Word :=
  match lookupName name syms with
  | some a => .ok a
  | none => .error .undefinedSymbol

/-- Pass 1 over the lines from line number `n` on, with the address counter, a 32-bit address that advances modulo 2^32
(R16; log 12), and the table so far (R132). -/
def passOneFrom : Nat → Word → SymbolTable → List SourceLine → Except AsmError SymbolTable
  | _, _, syms, [] => .ok syms
  | n, addr, syms, .blank :: rest => passOneFrom (n + 1) addr syms rest
  | n, addr, syms, .label l :: rest =>
    if (lookupName l syms).isSome then .error ⟨n, .malformedLine⟩
    else passOneFrom (n + 1) addr (defineSymbol l addr syms) rest
  | n, addr, syms, .instruction _ :: rest => passOneFrom (n + 1) (addr + 4#32) syms rest
  | n, _, _, .malformed :: _ => .error ⟨n, .malformedLine⟩

/-- Pass 1 (R132): line numbers from 1, addresses from 0 (D32). -/
def passOne (lines : List SourceLine) : Except AsmError SymbolTable := passOneFrom 1 0#32 [] lines

/-! Operands (R136 to R140). -/

/-- An integer literal `-?[0-9]+` (R137). -/
def intLiteral : List Char → Option Int
  | '-' :: ds => if ds ≠ [] ∧ ds.all isDigitChar = true then some (-(decimalValue ds : Int)) else none
  | ds => if ds ≠ [] ∧ ds.all isDigitChar = true then some (decimalValue ds : Int) else none

/-- A token without one trailing comma (R136). -/
def stripComma (tok : List Char) : List Char := if tok.getLast? = some ',' then tok.dropLast else tok

/-- The operands with one trailing comma removed from all but the last; `none` if the last ends in a comma (R136). -/
def stripOperands : List (List Char) → Option (List (List Char))
  | [] => some []
  | [tok] => if tok.getLast? = some ',' then none else some [tok]
  | tok :: rest =>
    match stripOperands rest with
    | some ts => some (stripComma tok :: ts)
    | none => none

/-- An integer operand in a range (R139). -/
def immOperand (lo hi : Int) (tok : List Char) : Except AsmErrorKind Int :=
  match intLiteral tok with
  | some v => if lo ≤ v ∧ v ≤ hi then .ok v else .error .malformedLine
  | none => .error .malformedLine

/-- The value of a target operand: an integer literal, or a label's address as an unsigned integer (R140, R16, D25). -/
def targetValue (syms : SymbolTable) (tok : List Char) : Except AsmErrorKind Int :=
  match intLiteral tok with
  | some v => .ok v
  | none =>
    match resolveSym syms tok with
    | .ok a => .ok (a.toNat : Int)
    | .error k => .error k

/-- A target operand in its range and, where `even` is set, even (R140, D24). -/
def targetOperand (syms : SymbolTable) (lo hi : Int) (even : Bool) (tok : List Char) : Except AsmErrorKind Int :=
  match targetValue syms tok with
  | .ok v => if lo ≤ v ∧ v ≤ hi ∧ (even = true → v % 2 = 0) then .ok v else .error .malformedLine
  | .error k => .error k

/-- The operand lists of R138, each with the instruction its operands make. -/
inductive OperandForm where
  /-- `rd, rs1, rs2`. -/
  | threeRegs (mk : RegIdx → RegIdx → RegIdx → Instr)
  /-- `reg, reg, imm` with a signed 12-bit immediate: I-type ALU, loads, stores. -/
  | twoRegsImm (mk : RegIdx → RegIdx → BitVec 12 → Instr)
  /-- `rd, rs1, imm` with a shift amount. -/
  | twoRegsShamt (mk : RegIdx → RegIdx → BitVec 5 → Instr)
  /-- `rs1, rs2, target`. -/
  | twoRegsTarget (mk : RegIdx → RegIdx → BitVec 13 → Instr)
  /-- `rd, target` (jal). -/
  | regTarget (mk : RegIdx → BitVec 21 → Instr)
  /-- `rd, rs1, target` (jalr). -/
  | twoRegsTarget12 (mk : RegIdx → RegIdx → BitVec 12 → Instr)
  /-- `rd, imm` with a 20-bit immediate (lui). -/
  | regUpper (mk : RegIdx → BitVec 20 → Instr)
  /-- No operand (halt). -/
  | noOperand (i : Instr)
  /-- `rs` (print). -/
  | oneReg (mk : RegIdx → Instr)

/-- The register-register ALU mnemonics (R138). -/
def regForms : List (List Char × OperandForm) :=
  [("add".toList, .threeRegs .add), ("sub".toList, .threeRegs .sub), ("sll".toList, .threeRegs .sll),
   ("slt".toList, .threeRegs .slt), ("sltu".toList, .threeRegs .sltu), ("xor".toList, .threeRegs .xor),
   ("srl".toList, .threeRegs .srl), ("sra".toList, .threeRegs .sra), ("or".toList, .threeRegs .or),
   ("and".toList, .threeRegs .and)]

/-- The register-immediate ALU mnemonics (R138). -/
def immForms : List (List Char × OperandForm) :=
  [("addi".toList, .twoRegsImm .addi), ("slti".toList, .twoRegsImm .slti), ("sltiu".toList, .twoRegsImm .sltiu),
   ("xori".toList, .twoRegsImm .xori), ("ori".toList, .twoRegsImm .ori), ("andi".toList, .twoRegsImm .andi),
   ("slli".toList, .twoRegsShamt .slli), ("srli".toList, .twoRegsShamt .srli), ("srai".toList, .twoRegsShamt .srai)]

/-- The load and store mnemonics (R138). -/
def memForms : List (List Char × OperandForm) :=
  [("lb".toList, .twoRegsImm .lb), ("lh".toList, .twoRegsImm .lh), ("lw".toList, .twoRegsImm .lw),
   ("lbu".toList, .twoRegsImm .lbu), ("lhu".toList, .twoRegsImm .lhu),
   ("sb".toList, .twoRegsImm .sb), ("sh".toList, .twoRegsImm .sh), ("sw".toList, .twoRegsImm .sw)]

/-- The remaining mnemonics: branches, jumps, lui and the custom operations (R138). -/
def controlForms : List (List Char × OperandForm) :=
  [("beq".toList, .twoRegsTarget .beq), ("bne".toList, .twoRegsTarget .bne), ("blt".toList, .twoRegsTarget .blt),
   ("bge".toList, .twoRegsTarget .bge), ("bltu".toList, .twoRegsTarget .bltu), ("bgeu".toList, .twoRegsTarget .bgeu),
   ("jal".toList, .regTarget .jal), ("jalr".toList, .twoRegsTarget12 .jalr), ("lui".toList, .regUpper .lui),
   ("halt".toList, .noOperand .halt), ("print".toList, .oneReg .print)]

/-- The mnemonics with their operand lists (R138). -/
def mnemonicForms : List (List Char × OperandForm) := regForms ++ immForms ++ memForms ++ controlForms

/-- The instruction that a form's operands make, each operand checked from left to right (R138 to R140, R151); a wrong
number of operands is `malformedLine` (R136). Immediates are stored modulo the size of their field (R139, R140). -/
def buildInstr (syms : SymbolTable) : OperandForm → List (List Char) → Except AsmErrorKind Instr
  | .threeRegs mk, [a, b, c] => do
    let x ← resolveReg a
    let y ← resolveReg b
    let z ← resolveReg c
    .ok (mk x y z)
  | .twoRegsImm mk, [a, b, c] => do
    let x ← resolveReg a
    let y ← resolveReg b
    let v ← immOperand (-2048) 2047 c
    .ok (mk x y (BitVec.ofInt 12 v))
  | .twoRegsShamt mk, [a, b, c] => do
    let x ← resolveReg a
    let y ← resolveReg b
    let v ← immOperand 0 31 c
    .ok (mk x y (BitVec.ofInt 5 v))
  | .twoRegsTarget mk, [a, b, c] => do
    let x ← resolveReg a
    let y ← resolveReg b
    let v ← targetOperand syms (-4096) 4094 true c
    .ok (mk x y (BitVec.ofInt 13 v))
  | .regTarget mk, [a, b] => do
    let x ← resolveReg a
    let v ← targetOperand syms (-1048576) 1048574 true b
    .ok (mk x (BitVec.ofInt 21 v))
  | .twoRegsTarget12 mk, [a, b, c] => do
    let x ← resolveReg a
    let y ← resolveReg b
    let v ← targetOperand syms (-2048) 2047 false c
    .ok (mk x y (BitVec.ofInt 12 v))
  | .regUpper mk, [a, b] => do
    let x ← resolveReg a
    let v ← immOperand (-524288) 1048575 b
    .ok (mk x (BitVec.ofInt 20 v))
  | .noOperand i, [] => .ok i
  | .oneReg mk, [a] => do
    let x ← resolveReg a
    .ok (mk x)
  | _, _ => .error .malformedLine

/-- The instruction of an instruction line: the mnemonic is checked first, then the operand count and a trailing comma,
then the operands (R151). An empty line of tokens, which `classifyLine` never makes, is malformed. -/
def parseInstr (syms : SymbolTable) : List (List Char) → Except AsmErrorKind Instr
  | [] => .error .malformedLine
  | m :: operands =>
    match lookupName m mnemonicForms with
    | none => .error .unknownOpcode
    | some form =>
      match stripOperands operands with
      | none => .error .malformedLine
      | some ts => buildInstr syms form ts

/-- `encode(mnemonic, operands, symbol_table)` (R135). -/
def encodeTokens (custom : Opcode) (syms : SymbolTable) (tokens : List (List Char)) : Except AsmErrorKind Word :=
  match parseInstr syms tokens with
  | .ok i => .ok (encode custom i)
  | .error k => .error k

/-- Pass 2 from line number `n` on: every instruction line's word in order; the first error ends it (R135, R151). -/
def passTwoFrom (custom : Opcode) (syms : SymbolTable) : Nat → List SourceLine → Except AsmError (List Word)
  | _, [] => .ok []
  | n, .instruction tokens :: rest =>
    match encodeTokens custom syms tokens with
    | .error k => .error ⟨n, k⟩
    | .ok w =>
      match passTwoFrom custom syms (n + 1) rest with
      | .ok ws => .ok (w :: ws)
      | .error e => .error e
  | n, .blank :: rest => passTwoFrom custom syms (n + 1) rest
  | n, .label _ :: rest => passTwoFrom custom syms (n + 1) rest
  | n, .malformed :: _ => .error ⟨n, .malformedLine⟩

/-- The words of the classified lines: pass 1 over all lines, then pass 2 (R132, R135, R151). -/
def assembleLines (custom : Opcode) (lines : List SourceLine) : Except AsmError (List Word) :=
  match passOne lines with
  | .error e => .error e
  | .ok syms => passTwoFrom custom syms 1 lines

/-- The words of an assembly text, or its first error; no word is output for a program with an error (R151). -/
def assemble (custom : Opcode) (text : List Char) : Except AsmError (List Word) :=
  assembleLines custom ((splitLines text).map classifyLine)

/-! Output text (R152). -/

/-- A word as 32 characters, most significant bit first (R152, D31). -/
def wordLine (w : Word) : List Char := (List.range 32).map fun k => if w.getMsbD k then '1' else '0'

/-- The assembler's output: one word a line, in program order, each line ended by a line feed (R152; log 13). -/
def outputText : List Word → List Char
  | [] => []
  | w :: ws => wordLine w ++ '\n' :: outputText ws

end Sys2Proof.Machine
end

