-- ==== Sys2Proof/Machine/Loader.lean ====
section
/-! DEFINITION. Creating the machine: `load` (10_state.md R46, R47; 70_reset_and_hazards.md R340) and the loader's text
form (R341). -/

namespace Sys2Proof.Machine

/-- `load(words, DMEM_INIT)` with the launch parameters DMEM_SIZE and CUSTOM_OPCODE: the block's only reset (R46, R47,
R340). `none` where the parameters are not ones a machine can have (R10, R119, R341; log 7). -/
def State.load (words : List Word) (dmemSize : Nat) (dmemInit : Nat → Byte) (custom : Opcode) : Option State :=
  if launchAllowed words dmemSize custom then
    some { State.reset with
      imem := words
      dmem := Memory.ofBytes dmemSize dmemInit
      dmemSize := dmemSize
      customOpcode := custom }
  else none

/-- A binary digit (R341). -/
def isBinaryChar (c : Char) : Bool := c == '0' || c == '1'

/-- One line of the loader's input: after trimming, 1 to 32 binary digits, most significant first (R341, D21). -/
def parseWordLine (line : List Char) : Option Word :=
  let t := trimText line
  if t ≠ [] ∧ t.length ≤ 32 ∧ t.all isBinaryChar = true then some (BitVec.ofNat 32 (binaryValue t)) else none

/-- Every line as a word, or `none` (R341: any other line makes the loader refuse the input). -/
def parseWordLines : List (List Char) → Option (List Word)
  | [] => some []
  | l :: ls =>
    match parseWordLine l, parseWordLines ls with
    | some w, some ws => some (w :: ws)
    | _, _ => none

/-- The lines without a final empty one (R341; log 11). -/
def dropFinalEmpty (ls : List (List Char)) : List (List Char) :=
  if ls.getLast? = some [] then ls.dropLast else ls

/-- The words of a loader input text, in file order, at most 2^30 of them (R341). -/
def parseProgram (text : List Char) : Option (List Word) :=
  match parseWordLines (dropFinalEmpty (splitLines text)) with
  | some ws => if ws.length ≤ Config.maxImemWords then some ws else none
  | none => none

/-- The machine loaded from the loader's text: no state is created where the input is refused (R341). -/
def State.loadText (text : List Char) (dmemSize : Nat) (dmemInit : Nat → Byte) (custom : Opcode) : Option State :=
  match parseProgram text with
  | some ws => State.load ws dmemSize dmemInit custom
  | none => none

end Sys2Proof.Machine
end

