-- ==== Sys2Proof/Machine/Run.lean ====
section
/-! DEFINITION. The run (40_execute_cycle.md R177, R179): steps until the first terminal outcome, under a step budget. -/

namespace Sys2Proof.Machine

/-- How a run under a budget ended (R177, R179). -/
inductive RunOutcome where
  /-- The run ended `Halted` (R170). -/
  | halted
  /-- The run ended `Faulted(kind, pc, w)` (R170). -/
  | faulted (kind : FaultKind) (pc w : Word)
  /-- A step was refused; no step of this model is. -/
  | refused (r : Refusal)
  /-- The budget ran out: no outcome of the hardware (R177). -/
  | unfinished
  deriving DecidableEq, Repr

/-- What is observed of a run: its outcome and its final state (R179). -/
structure RunResult where
  outcome : RunOutcome
  final : State
  deriving DecidableEq, Repr

/-- The run from a state with a budget of steps. After a fault the final state is the state before the faulting step
(R174, R179). -/
def run : Nat → State → RunResult
  | 0, s => ⟨.unfinished, s⟩
  | k + 1, s =>
    match step s with
    | .next t => run k t
    | .fault .halted => ⟨.halted, s⟩
    | .fault (.faulted kind pc w) => ⟨.faulted kind pc w, s⟩
    | .refused r => ⟨.refused r, s⟩

end Sys2Proof.Machine
end

