-- ==== Sys2Proof/Safety.lean ====
section
/-! DEFINITION. What claims are stated in: the invariant of reachable states, what a safe state and a safe run are, and
the parts of the state that an instruction may change. -/

namespace Sys2Proof.Machine

/-- The invariant of every reachable state: register 0 of the file holds 0 (R32), pc is a multiple of 4 (R35), data
memory is canonical and inside DMEM_SIZE (R43, R68), and the launch parameters are legal (R10, R119, R341). -/
structure State.Inv (s : State) : Prop where
  /-- The register file holds 0 at index 0 (R32). -/
  zero : s.regs[0] = 0#32
  /-- R35. -/
  pcAligned : s.pc.toNat % 4 = 0
  /-- The cell list is canonical. -/
  memWf : s.dmem.wf = true
  /-- R68. -/
  memWithin : s.dmem.within s.dmemSize = true
  /-- R10, R119, R341. -/
  launch : launchAllowed s.imem s.dmemSize s.customOpcode = true

/-- The state is created by `load` or follows by a step from a reachable state. -/
inductive Reachable : State → Prop where
  | load (words : List Word) (size : Nat) (init : Nat → Byte) (custom : Opcode) (s : State)
      (h : State.load words size init custom = some s) : Reachable s
  | step (s t : State) (hs : Reachable s) (h : step s = .next t) : Reachable t

/-- The next step is no execution fault: it completes or the machine is halted (R170). -/
def SafeState (s : State) : Prop := (∃ t, step s = .next t) ∨ step s = .fault .halted

/-- The first `k` steps from `s` meet no execution fault. -/
def SafeRun (k : Nat) (s : State) : Prop := (run k s).outcome = .halted ∨ (run k s).outcome = .unfinished

/-- The register an instruction writes, if any (R34): print's rd field is a source, and stores, branches and halt have
none. -/
def destReg : Instr → Option RegIdx
  | .add rd _ _ | .sub rd _ _ | .sll rd _ _ | .slt rd _ _ | .sltu rd _ _ | .xor rd _ _ | .srl rd _ _ | .sra rd _ _
  | .or rd _ _ | .and rd _ _ => some rd
  | .addi rd _ _ | .slti rd _ _ | .sltiu rd _ _ | .xori rd _ _ | .ori rd _ _ | .andi rd _ _ => some rd
  | .slli rd _ _ | .srli rd _ _ | .srai rd _ _ => some rd
  | .lb rd _ _ | .lh rd _ _ | .lw rd _ _ | .lbu rd _ _ | .lhu rd _ _ => some rd
  | .jal rd _ | .jalr rd _ _ | .lui rd _ => some rd
  | .sb _ _ _ | .sh _ _ _ | .sw _ _ _ => none
  | .beq _ _ _ | .bne _ _ _ | .blt _ _ _ | .bge _ _ _ | .bltu _ _ _ | .bgeu _ _ _ => none
  | .halt | .print _ => none

/-- The address and width of the store an instruction makes in `s`, if it is one (R236 to R239). -/
def storeOf (s : State) : Instr → Option (Word × Width)
  | .sb _ rs1 imm => some (s.effAddr rs1 imm, .byte)
  | .sh _ rs1 imm => some (s.effAddr rs1 imm, .half)
  | .sw _ rs1 imm => some (s.effAddr rs1 imm, .word)
  | _ => none

/-- The address an instruction transfers control to in `s`: a taken branch's, jal's or jalr's target (R250, R261, R262). -/
def transferTarget (s : State) : Instr → Option Word
  | .beq rs1 rs2 t => if s.readReg rs1 = s.readReg rs2 then some (t.signExtend 32) else none
  | .bne rs1 rs2 t => if s.readReg rs1 ≠ s.readReg rs2 then some (t.signExtend 32) else none
  | .blt rs1 rs2 t => if (s.readReg rs1).toInt < (s.readReg rs2).toInt then some (t.signExtend 32) else none
  | .bge rs1 rs2 t => if (s.readReg rs2).toInt ≤ (s.readReg rs1).toInt then some (t.signExtend 32) else none
  | .bltu rs1 rs2 t => if (s.readReg rs1).toNat < (s.readReg rs2).toNat then some (t.signExtend 32) else none
  | .bgeu rs1 rs2 t => if (s.readReg rs2).toNat ≤ (s.readReg rs1).toNat then some (t.signExtend 32) else none
  | .jal _ t => some (t.signExtend 32)
  | .jalr _ rs1 imm => some (s.readReg rs1 + imm.signExtend 32)
  | _ => none

/-- The data access an instruction makes in `s`: its effective address and width (R230, R236). -/
def accessOf (s : State) : Instr → Option (Word × Width)
  | .lb _ rs1 imm | .lbu _ rs1 imm | .sb _ rs1 imm => some (s.readReg rs1 + imm.signExtend 32, .byte)
  | .lh _ rs1 imm | .lhu _ rs1 imm | .sh _ rs1 imm => some (s.readReg rs1 + imm.signExtend 32, .half)
  | .lw _ rs1 imm | .sw _ rs1 imm => some (s.readReg rs1 + imm.signExtend 32, .word)
  | _ => none

/-- The values an instruction emits in `s` (R277). -/
def emitted (s : State) : Instr → List Word
  | .print rs => [s.readReg rs]
  | _ => []

/-- `t` is `s` but for pc and registers: data memory, the launch parameters, instruction memory, the halt flag and the
output stream are the same. -/
structure SameButRegs (s t : State) : Prop where
  mem : ∀ a, t.dmem.readByte a = s.dmem.readByte a
  size : t.dmemSize = s.dmemSize
  imem : t.imem = s.imem
  halt : t.haltFlag = s.haltFlag
  out : t.out = s.out
  custom : t.customOpcode = s.customOpcode

/-- `t` is `s` with the register rd at `v` and pc at `next`, and nothing else changed; x0 reads as 0 whatever rd is (R32,
R176). -/
structure WritesReg (s t : State) (rd : RegIdx) (v next : Word) : Prop where
  pc : t.pc = next
  zero : t.readReg 0#5 = 0#32
  dest : rd ≠ 0#5 → t.readReg rd = v
  others : ∀ r, r ≠ rd → t.readReg r = s.readReg r
  rest : SameButRegs s t

/-- `t` is `s` with pc at `next`, and nothing else changed. -/
structure OnlyPc (s t : State) (next : Word) : Prop where
  pc : t.pc = next
  regs : ∀ r, t.readReg r = s.readReg r
  rest : SameButRegs s t

end Sys2Proof.Machine
end

