-- ==== Sys2Proof/Certificates/Slice0/Obligations.lean ====
section
/-! DEFINITION. The statements for the provers, each read from numbered rules of spec/. Where a rule gives a value, the
statement writes it out in plain bit-vector and integer operations, not through the model's own helper. D<n> is a decision of
the spec's own (92_eei_decisions.md), which the model follows (log 15); a statement that rests on one says so. -/

open Sys2Proof Sys2Proof.Machine

namespace Sys2Proof.Claims

/-! What the per-instruction statements are made of. -/

/-- The outcome `Faulted(kind, pc, w)` of instruction `i` in `s` (R170, R301). -/
def FaultsWith (s : State) (i : Instr) (kind : FaultKind) : Prop :=
  exec i s = .fault (.faulted kind s.pc (encode s.customOpcode i))

/-- `i` completes in `s`, writes `v` to rd, advances pc by 4 and changes nothing else. -/
def CompletesWith (s : State) (i : Instr) (rd : RegIdx) (v : Word) : Prop :=
  ∃ t, exec i s = .next t ∧ WritesReg s t rd v (s.pc + 4#32)

/-- A register-register instruction: its word (R102) and its result (R190). -/
structure RTypeRule (s : State) (i : Instr) (f7 : BitVec 7) (f3 : BitVec 3) (rd rs1 rs2 : RegIdx) (v : Word) : Prop where
  word : encode s.customOpcode i = (f7 ++ rs2 ++ rs1 ++ f3 ++ rd ++ 0b0110011#7 : Word)
  result : CompletesWith s i rd v

/-- A register-immediate instruction: its word (R103) and its result (R210). -/
structure ITypeRule (s : State) (i : Instr) (f3 : BitVec 3) (rd rs1 : RegIdx) (imm : BitVec 12) (v : Word) : Prop where
  word : encode s.customOpcode i = (imm ++ rs1 ++ f3 ++ rd ++ 0b0010011#7 : Word)
  result : CompletesWith s i rd v

/-- A load of width `n` at `ea` whose extended value is `v`: it completes when aligned and in range, and faults otherwise,
alignment before range (R63, R64, R230, R308). A byte access is never misaligned: that clause speaks of the other widths. -/
structure LoadRule (s : State) (i : Instr) (rd : RegIdx) (ea : Word) (n : Width) (v : Word) : Prop where
  completes : ea.toNat % widthBytes n = 0 → ea.toNat + widthBytes n ≤ s.dmemSize → CompletesWith s i rd v
  misaligned : ea.toNat % widthBytes n ≠ 0 → FaultsWith s i .misalignedAccess
  outOfRange : ea.toNat % widthBytes n = 0 → s.dmemSize < ea.toNat + widthBytes n → FaultsWith s i .memoryOutOfRange

/-- `t` is `s` with the `n` low bytes of `v` stored at `ea`, little-endian, and pc advanced by 4; nothing else changed. -/
structure StoresBytes (s t : State) (ea : Word) (n : Width) (v : Word) : Prop where
  pc : t.pc = s.pc + 4#32
  regs : ∀ r, t.readReg r = s.readReg r
  inside : ∀ k, k < widthBytes n → t.dmem.readByte (ea.toNat + k) = v.extractLsb' (8 * k) 8
  outside : ∀ a, a < ea.toNat ∨ ea.toNat + widthBytes n ≤ a → t.dmem.readByte a = s.dmem.readByte a
  size : t.dmemSize = s.dmemSize
  imem : t.imem = s.imem
  halt : t.haltFlag = s.haltFlag
  out : t.out = s.out
  custom : t.customOpcode = s.customOpcode

/-- A store of width `n` of `v` at `ea`: it completes when aligned and in range, and faults otherwise, alignment before
range. Canonical memory is an invariant of reachable states (R63, R64, R236, R308). -/
structure StoreRule (s : State) (i : Instr) (ea : Word) (n : Width) (v : Word) : Prop where
  completes : s.dmem.wf = true → ea.toNat % widthBytes n = 0 → ea.toNat + widthBytes n ≤ s.dmemSize →
    ∃ t, exec i s = .next t ∧ StoresBytes s t ea n v
  misaligned : ea.toNat % widthBytes n ≠ 0 → FaultsWith s i .misalignedAccess
  outOfRange : ea.toNat % widthBytes n = 0 → s.dmemSize < ea.toNat + widthBytes n → FaultsWith s i .memoryOutOfRange

/-- A branch with condition `c` to `target`: taken to a multiple of 4, taken to any other address (a fault), not taken
(never a fault); only pc changes (R250). -/
structure BranchRule (s : State) (i : Instr) (c : Prop) (target : Word) : Prop where
  taken : c → target.toNat % 4 = 0 → ∃ t, exec i s = .next t ∧ OnlyPc s t target
  misaligned : c → target.toNat % 4 ≠ 0 → FaultsWith s i .misalignedTarget
  notTaken : ¬ c → ∃ t, exec i s = .next t ∧ OnlyPc s t (s.pc + 4#32)

/-- A jump to `target` with link register rd: link and pc are written when the target is a multiple of 4; else a fault,
with nothing written (R260). -/
structure JumpRule (s : State) (i : Instr) (rd : RegIdx) (target : Word) : Prop where
  aligned : target.toNat % 4 = 0 → ∃ t, exec i s = .next t ∧ WritesReg s t rd (s.pc + 4#32) target
  misaligned : target.toNat % 4 ≠ 0 → FaultsWith s i .misalignedTarget

/-- The answer with `f` applied to its next state, a fault or refusal as it is. -/
def mapNext (f : State → State) : Answer → Answer
  | .next t => .next (f t)
  | .fault r => .fault r
  | .refused r => .refused r

/-- How many instruction lines a list of source lines has (R132). -/
def instrCount : List SourceLine → Nat
  | [] => 0
  | .instruction _ :: rest => instrCount rest + 1
  | .blank :: rest => instrCount rest
  | .label _ :: rest => instrCount rest
  | .malformed :: rest => instrCount rest

/-- How many operands an operand list has (R138). -/
def formArity : OperandForm → Nat
  | .threeRegs _ | .twoRegsImm _ | .twoRegsShamt _ | .twoRegsTarget _ | .twoRegsTarget12 _ => 3
  | .regTarget _ | .regUpper _ => 2
  | .oneReg _ => 1
  | .noOperand _ => 0

/-! The assembler's tables, written out from the spec. -/

/-- The names of the registers with their indices: R130's numeric names, then R33's ABI names. -/
def registerNamePairs : List (String × Nat) :=
  [("x0", 0), ("x1", 1), ("x2", 2), ("x3", 3), ("x4", 4), ("x5", 5), ("x6", 6), ("x7", 7), ("x8", 8), ("x9", 9)] ++
  [("x10", 10), ("x11", 11), ("x12", 12), ("x13", 13), ("x14", 14), ("x15", 15), ("x16", 16), ("x17", 17)] ++
  [("x18", 18), ("x19", 19), ("x20", 20), ("x21", 21), ("x22", 22), ("x23", 23), ("x24", 24), ("x25", 25)] ++
  [("x26", 26), ("x27", 27), ("x28", 28), ("x29", 29), ("x30", 30), ("x31", 31)] ++
  [("zero", 0), ("ra", 1), ("sp", 2), ("gp", 3), ("tp", 4), ("t0", 5), ("t1", 6), ("t2", 7), ("s0", 8), ("fp", 8)] ++
  [("s1", 9), ("a0", 10), ("a1", 11), ("a2", 12), ("a3", 13), ("a4", 14), ("a5", 15), ("a6", 16), ("a7", 17)] ++
  [("s2", 18), ("s3", 19), ("s4", 20), ("s5", 21), ("s6", 22), ("s7", 23), ("s8", 24), ("s9", 25), ("s10", 26)] ++
  [("s11", 27), ("t3", 28), ("t4", 29), ("t5", 30), ("t6", 31)]

/-- R138's mnemonics with operands `rd, rs1, rs2`. -/
def regMnemonics : List (String × (RegIdx → RegIdx → RegIdx → Instr)) :=
  [("add", .add), ("sub", .sub), ("sll", .sll), ("slt", .slt), ("sltu", .sltu), ("xor", .xor), ("srl", .srl),
   ("sra", .sra), ("or", .or), ("and", .and)]

/-- R138's mnemonics with two registers and a signed 12-bit immediate: `rd, rs1, imm`, for a store `rs2, rs1, imm`. -/
def immMnemonics : List (String × (RegIdx → RegIdx → BitVec 12 → Instr)) :=
  [("addi", .addi), ("slti", .slti), ("sltiu", .sltiu), ("xori", .xori), ("ori", .ori), ("andi", .andi), ("lb", .lb),
   ("lh", .lh), ("lw", .lw), ("lbu", .lbu), ("lhu", .lhu)] ++
  [("sb", fun rs2 rs1 imm => .sb rs2 rs1 imm), ("sh", fun rs2 rs1 imm => .sh rs2 rs1 imm),
   ("sw", fun rs2 rs1 imm => .sw rs2 rs1 imm)]

/-- R138's mnemonics with operands `rd, rs1` and a shift amount. -/
def shiftMnemonics : List (String × (RegIdx → RegIdx → BitVec 5 → Instr)) :=
  [("slli", .slli), ("srli", .srli), ("srai", .srai)]

/-- R138's mnemonics with operands `rs1, rs2, target`. -/
def branchMnemonics : List (String × (RegIdx → RegIdx → BitVec 13 → Instr)) :=
  [("beq", .beq), ("bne", .bne), ("blt", .blt), ("bge", .bge), ("bltu", .bltu), ("bgeu", .bgeu)]

/-- The token `tok`, not the last one, spells the operand `a`: `a` itself, or `a` and one comma (R136). -/
def Spells (a tok : List Char) : Prop := tok = a ++ [','] ∨ (tok = a ∧ a.getLast? ≠ some ',')

/-- The register that a token that is not the last one names (R130, R136). -/
def NamesReg (tok : List Char) (x : RegIdx) : Prop := ∃ a, Spells a tok ∧ resolveReg a = .ok x

/-- The value of a target operand: an integer literal's, or else the label's address, unsigned (R140). -/
def TargetMeans (syms : SymbolTable) (tok : List Char) (v : Int) : Prop :=
  intLiteral tok = some v ∨ (intLiteral tok = none ∧ ∃ a : Word, resolveSym syms tok = .ok a ∧ v = a.toNat)

/-- Lines `m r, r, r`: accepted exactly when the three are register names, and then the instruction `mk` of the three. -/
def ParsesThreeRegs (m : String) (mk : RegIdx → RegIdx → RegIdx → Instr) : Prop :=
  ∀ (syms : SymbolTable) (ta tb c : List Char) (i : Instr),
    parseInstr syms [m.toList, ta, tb, c] = .ok i ↔
      ∃ x y z, NamesReg ta x ∧ NamesReg tb y ∧ resolveReg c = .ok z ∧ i = mk x y z

/-- Lines `m r, r, imm`: accepted exactly when the two are register names and the third is an integer literal in
`lo .. hi`, and then the instruction `mk` of the two and of the value modulo the size of the field (R139). -/
def ParsesTwoRegsImm {n : Nat} (m : String) (lo hi : Int) (mk : RegIdx → RegIdx → BitVec n → Instr) : Prop :=
  ∀ (syms : SymbolTable) (ta tb c : List Char) (i : Instr),
    parseInstr syms [m.toList, ta, tb, c] = .ok i ↔
      ∃ x y v, NamesReg ta x ∧ NamesReg tb y ∧ intLiteral c = some v ∧ lo ≤ v ∧ v ≤ hi ∧ i = mk x y (BitVec.ofInt n v)

/-- Lines `m r, imm`, in the same way. -/
def ParsesRegImm {n : Nat} (m : String) (lo hi : Int) (mk : RegIdx → BitVec n → Instr) : Prop :=
  ∀ (syms : SymbolTable) (ta c : List Char) (i : Instr),
    parseInstr syms [m.toList, ta, c] = .ok i ↔
      ∃ x v, NamesReg ta x ∧ intLiteral c = some v ∧ lo ≤ v ∧ v ≤ hi ∧ i = mk x (BitVec.ofInt n v)

/-- Lines `m r, r, target`: accepted exactly when the two are register names and the third, which ends in no comma, has a
target value that is `ok`, and then the instruction `mk` of the two and of the value modulo the size of the field (R140). -/
def ParsesTwoRegsTarget {n : Nat} (m : String) (ok : Int → Prop) (mk : RegIdx → RegIdx → BitVec n → Instr) : Prop :=
  ∀ (syms : SymbolTable) (ta tb c : List Char) (i : Instr),
    parseInstr syms [m.toList, ta, tb, c] = .ok i ↔
      ∃ x y v, NamesReg ta x ∧ NamesReg tb y ∧ c.getLast? ≠ some ',' ∧ TargetMeans syms c v ∧ ok v ∧
        i = mk x y (BitVec.ofInt n v)

/-- Lines `m r, target`, in the same way. -/
def ParsesRegTarget {n : Nat} (m : String) (ok : Int → Prop) (mk : RegIdx → BitVec n → Instr) : Prop :=
  ∀ (syms : SymbolTable) (ta c : List Char) (i : Instr),
    parseInstr syms [m.toList, ta, c] = .ok i ↔
      ∃ x v, NamesReg ta x ∧ c.getLast? ≠ some ',' ∧ TargetMeans syms c v ∧ ok v ∧ i = mk x (BitVec.ofInt n v)

end Sys2Proof.Claims

open Sys2Proof.Claims

/-! ## Reset and launch -/

/-- R47: `load` creates the state with pc 0, every register 0, the halt flag false, no output, the loaded words in
instruction memory and DMEM_INIT in data memory, for every legal choice of the launch parameters (R10, R119). The zero of
x2 to x31, of pc and of the output stream are the spec's decisions D9, D10 and D41 (log 16). -/
def Obligations.LoadGivesResetValues : Prop :=
  ∀ (words : List Word) (size : Nat) (init : Nat → Byte) (custom : Opcode),
    launchAllowed words size custom = true →
    ∃ s, State.load words size init custom = some s ∧ s.pc = 0#32 ∧ (∀ r, s.readReg r = 0#32) ∧ s.haltFlag = false ∧
      s.out = [] ∧ s.imem = words ∧ s.dmemSize = size ∧ (∀ a, a < size → s.dmem.readByte a = init a) ∧
      s.customOpcode = custom

/-- The model's own reset state is `load` of no words with the launch parameters that log 1, 2 and 3 choose. -/
def Obligations.ResetIsLoadOfNothing : Prop :=
  State.load [] resetDmemSize (fun _ => 0#8) resetCustomOpcode = some State.reset

/-- The reset state meets the invariant (R32, R35, R47); its launch parameters are the model's choice (log 1, 2, 3). -/
def Obligations.ResetMeetsInv : Prop := State.reset.Inv

/-- Every loaded state meets the invariant (R32, R35, R47). -/
def Obligations.LoadedStateMeetsInv : Prop :=
  ∀ (words : List Word) (size : Nat) (init : Nat → Byte) (custom : Opcode) (s : State),
    State.load words size init custom = some s → s.Inv

/-! ## Whole-machine invariants -/

/-- Every step keeps the invariant: register 0 of the file at 0 (R32), pc a multiple of 4 (R35), data memory canonical and
inside DMEM_SIZE (R43), the launch parameters legal (R10, R119). That pc stays aligned rests on the spec's decision D4. -/
def Obligations.StepKeepsInv : Prop := ∀ s t : State, s.Inv → step s = .next t → t.Inv

/-- R35, R65: in every reachable state pc is a multiple of 4 and x0 reads as 0 in the file; so the fetch index is exact. It
rests on the spec's decisions D4 and D10. -/
def Obligations.ReachablePcAligned : Prop :=
  ∀ s : State, Reachable s → s.pc.toNat % 4 = 0 ∧ 4 * (s.pc.toNat / 4) = s.pc.toNat ∧ s.regs[0] = 0#32

/-- R42, R74: no run changes instruction memory, data memory's size or CUSTOM_OPCODE. -/
def Obligations.RunKeepsInstructionMemory : Prop :=
  ∀ (k : Nat) (s : State), (run k s).final.imem = s.imem ∧ (run k s).final.dmemSize = s.dmemSize ∧
    (run k s).final.customOpcode = s.customOpcode

/-- R44: a run only ever appends to the output stream. -/
def Obligations.RunOnlyAppendsOutput : Prop :=
  ∀ (k : Nat) (s : State), ∃ vs : List Word, (run k s).final.out = s.out ++ vs

/-! ## The step and the run -/

/-- R172: a machine that is not halted, whose word at pc decodes to an instruction, runs that instruction. -/
def Obligations.StepRunsDecodedInstruction : Prop :=
  ∀ (s : State) (w : Word) (i : Instr), s.haltFlag = false → s.pc.toNat < 4 * s.imem.length →
    s.imem[s.pc.toNat / 4]? = some w → decode s.customOpcode w = .ok i → step s = exec i s

/-- R171, R306: the machine is halted exactly when its flag is set or pc is at or past the end of instruction memory; then,
and only then, a step answers `Halted` (R172); an empty instruction memory is halted at reset. That such a step answers
`Halted` is the spec's decision D33; the model carries it as a fault of that name (log 4). -/
def Obligations.StepHaltsExactlyWhenHalted : Prop :=
  (∀ s : State, s.isHalted = true ↔ (s.haltFlag = true ∨ 4 * s.imem.length ≤ s.pc.toNat)) ∧
  (∀ s : State, step s = .fault .halted ↔ s.isHalted = true) ∧
  (∀ (size : Nat) (init : Nat → Byte) (custom : Opcode) (s : State),
    State.load [] size init custom = some s → s.isHalted = true)

/-- R302, R303: a word that does not decode ends the run with `UnsupportedCustomOp` when its opcode is CUSTOM_OPCODE and
`UnsupportedOpcode` otherwise, with the word's address and the word. The fault on reserved bits of a custom word is the
spec's decision D7. -/
def Obligations.StepFaultsOnUndecodableWord : Prop :=
  ∀ (s : State) (w : Word) (k : DecodeFault), s.isHalted = false → s.imem[s.pc.toNat / 4]? = some w →
    decode s.customOpcode w = .error k →
    step s = .fault (.faulted
      (if w.extractLsb' 0 7 = s.customOpcode then .unsupportedCustomOp else .unsupportedOpcode) s.pc w)

/-- R170: a step never answers anything but `Next`, `Halted` or `Faulted`: the model refuses no instruction (the spec's
decisions D18 and D33; log 4 says how `Halted` is carried). -/
def Obligations.StepNeverRefuses : Prop :=
  ∀ s : State, (∃ t, step s = .next t) ∨ step s = .fault .halted ∨
    ∃ kind, step s = .fault (.faulted kind s.pc (s.imem.getD (s.pc.toNat / 4) 0#32))

/-- R301, R24: a fault records the address of the faulting instruction and the word fetched there. -/
def Obligations.FaultRecordsPcAndWord : Prop :=
  ∀ (s : State) (kind : FaultKind) (pc w : Word), step s = .fault (.faulted kind pc w) →
    s.isHalted = false ∧ pc = s.pc ∧ s.imem[s.pc.toNat / 4]? = some w

/-- R301, "raised by": `exec` faults with `MisalignedTarget` only on a control transfer to a target that is no multiple of 4,
with `MisalignedAccess` only on a misaligned load or store, and with `MemoryOutOfRange` only on an aligned load or store
that reaches past DMEM_SIZE; it raises no other kind. These three faults are the spec's decisions D4, D13 and D14. -/
def Obligations.ExecFaultKinds : Prop :=
  ∀ (i : Instr) (s : State) (f : Fault), exec i s = .fault f →
    (f = .faulted .misalignedTarget s.pc (encode s.customOpcode i) ∧
      ∃ t, transferTarget s i = some t ∧ t.toNat % 4 ≠ 0) ∨
    (f = .faulted .misalignedAccess s.pc (encode s.customOpcode i) ∧
      ∃ ea n, accessOf s i = some (ea, n) ∧ ea.toNat % widthBytes n ≠ 0) ∨
    (f = .faulted .memoryOutOfRange s.pc (encode s.customOpcode i) ∧
      ∃ ea n, accessOf s i = some (ea, n) ∧ ea.toNat % widthBytes n = 0 ∧ s.dmemSize < ea.toNat + widthBytes n)

/-- R308: an instruction completes exactly when its data access, if it makes one, is aligned and in range, and its control
transfer, if it makes one, goes to a multiple of 4. These faults are the spec's decisions D4, D13 and D14. -/
def Obligations.ExecCompletesExactly : Prop :=
  ∀ (i : Instr) (s : State),
    (∃ t, exec i s = .next t) ↔
      (∀ ea n, accessOf s i = some (ea, n) → ea.toNat % widthBytes n = 0 ∧ ea.toNat + widthBytes n ≤ s.dmemSize) ∧
      (∀ t, transferTarget s i = some t → t.toNat % 4 = 0)

/-- R174, R177, R179: a run makes the steps: a step to a next state is followed by the run from that state, a terminal
outcome ends the run in the state it was answered in, and a budget of no steps leaves the state and no outcome. After a
faulted run the final state is the state before the faulting step, which would fault again alike; after a halted run the
final state is halted, by its flag or by pc past the end. What a fault leaves is the spec's decision D18; how `Halted` is
carried is log 4. -/
def Obligations.RunEndStates : Prop :=
  ∀ (k : Nat) (s : State),
    run 0 s = ⟨.unfinished, s⟩ ∧
    (∀ t, step s = .next t → run (k + 1) s = run k t) ∧
    (step s = .fault .halted → run (k + 1) s = ⟨.halted, s⟩) ∧
    (∀ kind pc w, step s = .fault (.faulted kind pc w) → run (k + 1) s = ⟨.faulted kind pc w, s⟩) ∧
    (∀ kind pc w, (run k s).outcome = .faulted kind pc w →
      pc = (run k s).final.pc ∧ step (run k s).final = .fault (.faulted kind pc w)) ∧
    ((run k s).outcome = .halted →
      ((run k s).final.haltFlag = true ∨ 4 * (run k s).final.imem.length ≤ (run k s).final.pc.toNat))

/-- R170, R177: an ended run stays ended; a larger step budget changes nothing of it (the spec's decisions D18 and D33). -/
def Obligations.EndedRunIsFinal : Prop :=
  ∀ (k j : Nat) (s : State), (run k s).outcome ≠ .unfinished → run (k + j) s = run k s

/-- R276's example: a program of the halt word alone is halted after exactly one step, with pc unchanged, and then has no
further step. -/
def Obligations.HaltProgramHaltsInOneStep : Prop :=
  ∀ (size : Nat) (init : Nat → Byte) (s : State),
    State.load [0x0000000B#32] size init 0b0001011#7 = some s →
    s.isHalted = false ∧
      ∃ t, step s = .next t ∧ t.pc = 0#32 ∧ t.haltFlag = true ∧ t.isHalted = true ∧ step t = .fault .halted

/-! ## Registers, pc, flag, output and memory: frames over all instructions -/

/-- R32: x0 reads as 0 and a write to it changes nothing; any other register reads as it was last written; a write leaves
the other registers alone and never puts a nonzero value at index 0. -/
def Obligations.RegisterFileLaws : Prop :=
  ∀ (s : State) (i : RegIdx) (v : Word),
    s.readReg 0#5 = 0#32 ∧ s.writeReg 0#5 v = s ∧ (i ≠ 0#5 → (s.writeReg i v).readReg i = v) ∧
    (∀ r, r ≠ i → (s.writeReg i v).readReg r = s.readReg r) ∧
    (s.regs[0] = 0#32 → (s.writeReg i v).regs[0] = 0#32)

/-- R34: an instruction changes no register but its destination; stores, branches, halt and print change none. -/
def Obligations.OnlyDestinationRegisterChanges : Prop :=
  ∀ (i : Instr) (s t : State) (r : RegIdx), exec i s = .next t → destReg i ≠ some r → t.readReg r = s.readReg r

/-- R121: an instruction whose rd is x0 changes no register, and `addi x0, x0, 0` only advances pc. -/
def Obligations.WriteToX0Discarded : Prop :=
  (∀ (i : Instr) (s t : State) (r : RegIdx), destReg i = some 0#5 → exec i s = .next t →
    t.readReg r = s.readReg r) ∧
  (∀ s : State, ∃ t, exec (.addi 0#5 0#5 0#12) s = .next t ∧ OnlyPc s t (s.pc + 4#32))

/-- R37: halt leaves pc; a taken branch, jal and jalr set it to their target; every other instruction, and a branch not
taken, adds 4. The targets are those of `transferTarget`: absolute and sign-extended for branches and jal (the spec's
decisions D1 and D2), x[rs1] plus the immediate for jalr (D3; log 14). -/
def Obligations.NextPcRule : Prop :=
  ∀ (i : Instr) (s t : State), exec i s = .next t →
    t.pc = if i = .halt then s.pc else (transferTarget s i).getD (s.pc + 4#32)

/-- R38: pc + 4 wraps for a fetched instruction only at 0xFFFFFFFC, which needs 2^30 words. There the next pc and the link
value are 0, and every instruction but halt and a control transfer goes on at word 0, not halted. The wrap is the spec's
decision D42. -/
def Obligations.PcWrapsOnlyAtTheTop : Prop :=
  ∀ s : State, s.Inv → s.isHalted = false →
    (s.imem.length < 1073741824 → s.pc.toNat ≤ 0xFFFFFFF8) ∧
    (s.pc ≠ 0xFFFFFFFC#32 → s.nextPc.toNat = s.pc.toNat + 4) ∧
    (s.pc = 0xFFFFFFFC#32 → s.imem.length = 1073741824 ∧ s.nextPc = 0#32 ∧
      (∀ (i : Instr) (t : State), exec i s = .next t → i ≠ .halt → transferTarget s i = none →
        t.pc = 0#32 ∧ t.isHalted = false ∧ t.fetch = s.imem[0]?) ∧
      (∀ (rd : RegIdx) (target : BitVec 21) (t : State), exec (.jal rd target) s = .next t → t.readReg rd = 0#32) ∧
      (∀ (rd rs1 : RegIdx) (imm : BitVec 12) (t : State), exec (.jalr rd rs1 imm) s = .next t → t.readReg rd = 0#32) ∧
      ∀ (rd rs1 : RegIdx) (imm : BitVec 12), ∃ t, exec (.addi rd rs1 imm) s = .next t ∧ t.pc = 0#32 ∧ t.isHalted = false)

/-- R39: the halt flag is set by halt alone and cleared by no instruction. -/
def Obligations.OnlyHaltSetsTheFlag : Prop :=
  ∀ (i : Instr) (s t : State), exec i s = .next t → t.haltFlag = (s.haltFlag || decide (i = .halt))

/-- R44: print appends its operand to the output stream, and no other instruction changes it. -/
def Obligations.OnlyPrintEmits : Prop :=
  ∀ (i : Instr) (s t : State), exec i s = .next t → t.out = s.out ++ emitted s i

/-- R61, R67: only a store changes data memory, and only the bytes it stores to; a byte outside them, and every byte for an
instruction that is no store, reads as before. -/
def Obligations.OnlyStoresChangeMemory : Prop :=
  ∀ (i : Instr) (s t : State) (a : Nat), exec i s = .next t →
    (storeOf s i = none → t.dmem = s.dmem) ∧
    (∀ ea n, storeOf s i = some (ea, n) → a < ea.toNat ∨ ea.toNat + widthBytes n ≤ a →
      t.dmem.readByte a = s.dmem.readByte a)

/-- R42, R43: no instruction reads instruction memory: what executing it does is the same whatever is loaded there. -/
def Obligations.ExecIgnoresInstructionMemory : Prop :=
  ∀ (i : Instr) (s : State) (words : List Word),
    exec i { s with imem := words } = mapNext (fun t => { t with imem := words }) (exec i s)

/-- R44: no instruction reads the output stream: earlier output never changes what an instruction does. -/
def Obligations.ExecIgnoresOutput : Prop :=
  ∀ (i : Instr) (s : State) (earlier : List Word),
    exec i { s with out := earlier ++ s.out } = mapNext (fun t => { t with out := earlier ++ t.out }) (exec i s)

/-! ## Data memory -/

/-- R60, R63, R64: `MemRead` faults on a misaligned address, then on a range past DMEM_SIZE, and else gives the bytes from
the address on, the lowest address least significant. Byte order, alignment fault and range fault are the spec's decisions
D12, D13 and D14, and their order D17. -/
def Obligations.MemReadRule : Prop :=
  ∀ (s : State) (ea : Word) (n : Width),
    (ea.toNat % widthBytes n ≠ 0 → s.memRead ea n = .error .misalignedAccess) ∧
    (ea.toNat % widthBytes n = 0 → s.dmemSize < ea.toNat + widthBytes n → s.memRead ea n = .error .memoryOutOfRange) ∧
    (ea.toNat % widthBytes n = 0 → ea.toNat + widthBytes n ≤ s.dmemSize →
      ∃ v, s.memRead ea n = .ok v ∧
        ∀ k, k < widthBytes n → v.extractLsb' (8 * k) 8 = s.dmem.readByte (ea.toNat + k))

/-- R61: `MemWrite` faults as `MemRead` does, writing nothing, and else sets the bytes from the address on to the low bytes
of the value, the lowest first, and changes no other byte. It rests on the spec's decisions D12, D13, D14 and D17. -/
def Obligations.MemWriteRule : Prop :=
  ∀ (s : State) (ea : Word) (n : Width) (v : Word), s.dmem.wf = true →
    (ea.toNat % widthBytes n ≠ 0 → s.memWrite ea n v = .error .misalignedAccess) ∧
    (ea.toNat % widthBytes n = 0 → s.dmemSize < ea.toNat + widthBytes n →
      s.memWrite ea n v = .error .memoryOutOfRange) ∧
    (ea.toNat % widthBytes n = 0 → ea.toNat + widthBytes n ≤ s.dmemSize →
      ∃ m : Memory, s.memWrite ea n v = .ok { s with dmem := m } ∧ m.wf = true ∧
        (∀ k, k < widthBytes n → m.readByte (ea.toNat + k) = v.extractLsb' (8 * k) 8) ∧
        (∀ a, a < ea.toNat ∨ ea.toNat + widthBytes n ≤ a → m.readByte a = s.dmem.readByte a))

/-- R62: after a 4-byte store of `v` at `ea`, a 1-byte load at `ea` gives `v[7:0]` and at `ea + 3` gives `v[31:24]`
(the spec's decision D12). -/
def Obligations.ByteLoadSeesWordStore : Prop :=
  ∀ (s t : State) (ea v : Word), s.dmem.wf = true → s.memWrite ea .word v = .ok t →
    t.memRead ea .byte = .ok (v.extractLsb' 0 8) ∧ t.memRead (ea + 3#32) .byte = .ok (v.extractLsb' 24 8)

/-- R71: a load of the stored width at the stored address gives back what the store wrote: the whole register after sw and
lw, its low half after sh and lhu, its low byte after sb and lbu. -/
def Obligations.LoadReturnsLastStore : Prop :=
  ∀ (s t : State) (rs2 rs1 rd : RegIdx) (imm : BitVec 12), s.dmem.wf = true → rd ≠ 0#5 →
    (exec (.sw rs2 rs1 imm) s = .next t →
      ∃ u, exec (.lw rd rs1 imm) t = .next u ∧ u.readReg rd = s.readReg rs2) ∧
    (exec (.sh rs2 rs1 imm) s = .next t →
      ∃ u, exec (.lhu rd rs1 imm) t = .next u ∧ u.readReg rd = (s.readReg rs2) &&& 0x0000FFFF#32) ∧
    (exec (.sb rs2 rs1 imm) s = .next t →
      ∃ u, exec (.lbu rd rs1 imm) t = .next u ∧ u.readReg rd = (s.readReg rs2) &&& 0x000000FF#32)

/-! ## Instruction results -/

/-- R191, R192, R194, R195, R196, R199, R200: each of these register-register instructions has the word the rule gives,
completes in every state, writes its result to rd (x0 stays 0), advances pc by 4 and changes nothing else. -/
def Obligations.RegisterAluResults : Prop :=
  ∀ (s : State) (rd rs1 rs2 : RegIdx) (a b : Word), a = s.readReg rs1 → b = s.readReg rs2 →
    RTypeRule s (.add rd rs1 rs2) 0b0000000#7 0b000#3 rd rs1 rs2 (a + b) ∧
    RTypeRule s (.sub rd rs1 rs2) 0b0100000#7 0b000#3 rd rs1 rs2 (a - b) ∧
    RTypeRule s (.slt rd rs1 rs2) 0b0000000#7 0b010#3 rd rs1 rs2 (if a.toInt < b.toInt then 1#32 else 0#32) ∧
    RTypeRule s (.sltu rd rs1 rs2) 0b0000000#7 0b011#3 rd rs1 rs2 (if a.toNat < b.toNat then 1#32 else 0#32) ∧
    RTypeRule s (.xor rd rs1 rs2) 0b0000000#7 0b100#3 rd rs1 rs2 (a ^^^ b) ∧
    RTypeRule s (.or rd rs1 rs2) 0b0000000#7 0b110#3 rd rs1 rs2 (a ||| b) ∧
    RTypeRule s (.and rd rs1 rs2) 0b0000000#7 0b111#3 rd rs1 rs2 (a &&& b)

/-- R193, R197, R198: the three register shifts, by the low five bits of x[rs2]; that amount is the spec's decision D16. -/
def Obligations.RegisterShiftResults : Prop :=
  ∀ (s : State) (rd rs1 rs2 : RegIdx) (a b : Word), a = s.readReg rs1 → b = s.readReg rs2 →
    RTypeRule s (.sll rd rs1 rs2) 0b0000000#7 0b001#3 rd rs1 rs2 (a <<< (b.toNat % 32)) ∧
    RTypeRule s (.srl rd rs1 rs2) 0b0000000#7 0b101#3 rd rs1 rs2 (a >>> (b.toNat % 32)) ∧
    RTypeRule s (.sra rd rs1 rs2) 0b0100000#7 0b101#3 rd rs1 rs2 (a.sshiftRight (b.toNat % 32))

/-- R211 to R216: each register-immediate instruction has the word the rule gives, completes in every state, writes its
result to rd, the immediate sign-extended (for sltiu too, then compared as unsigned), advances pc by 4 and changes nothing
else. -/
def Obligations.ImmediateAluResults : Prop :=
  ∀ (s : State) (rd rs1 : RegIdx) (imm : BitVec 12) (a : Word), a = s.readReg rs1 →
    ITypeRule s (.addi rd rs1 imm) 0b000#3 rd rs1 imm (a + imm.signExtend 32) ∧
    ITypeRule s (.slti rd rs1 imm) 0b010#3 rd rs1 imm (if a.toInt < imm.toInt then 1#32 else 0#32) ∧
    ITypeRule s (.sltiu rd rs1 imm) 0b011#3 rd rs1 imm
      (if a.toNat < (imm.signExtend 32 : Word).toNat then 1#32 else 0#32) ∧
    ITypeRule s (.xori rd rs1 imm) 0b100#3 rd rs1 imm (a ^^^ imm.signExtend 32) ∧
    ITypeRule s (.ori rd rs1 imm) 0b110#3 rd rs1 imm (a ||| imm.signExtend 32) ∧
    ITypeRule s (.andi rd rs1 imm) 0b111#3 rd rs1 imm (a &&& imm.signExtend 32)

/-- R217 to R219: each shift-immediate instruction completes in every state and shifts by its five-bit amount, unsigned;
the place and width of the amount are the spec's decision D35. -/
def Obligations.ImmediateShiftResults : Prop :=
  ∀ (s : State) (rd rs1 : RegIdx) (shamt : BitVec 5),
    CompletesWith s (.slli rd rs1 shamt) rd (s.readReg rs1 <<< shamt.toNat) ∧
    CompletesWith s (.srli rd rs1 shamt) rd (s.readReg rs1 >>> shamt.toNat) ∧
    CompletesWith s (.srai rd rs1 shamt) rd ((s.readReg rs1).sshiftRight shamt.toNat)

/-- R231 to R235: the five loads. The wrap of the address, the byte order, the two faults and their order are the spec's
decisions D15, D12, D13, D14 and D17. -/
def Obligations.LoadResults : Prop :=
  ∀ (s : State) (rd rs1 : RegIdx) (imm : BitVec 12) (ea : Word), ea = s.readReg rs1 + imm.signExtend 32 →
    LoadRule s (.lb rd rs1 imm) rd ea .byte ((s.dmem.readByte ea.toNat).signExtend 32) ∧
    LoadRule s (.lh rd rs1 imm) rd ea .half
      ((s.dmem.readByte (ea.toNat + 1) ++ s.dmem.readByte ea.toNat : BitVec 16).signExtend 32) ∧
    LoadRule s (.lw rd rs1 imm) rd ea .word
      (s.dmem.readByte (ea.toNat + 3) ++ s.dmem.readByte (ea.toNat + 2) ++ s.dmem.readByte (ea.toNat + 1) ++
        s.dmem.readByte ea.toNat) ∧
    LoadRule s (.lbu rd rs1 imm) rd ea .byte ((s.dmem.readByte ea.toNat).setWidth 32) ∧
    LoadRule s (.lhu rd rs1 imm) rd ea .half
      ((s.dmem.readByte (ea.toNat + 1) ++ s.dmem.readByte ea.toNat : BitVec 16).setWidth 32)

/-- R237 to R239: the three stores. The wrap of the address, the byte order, the two faults and their order are the spec's
decisions D15, D12, D13, D14 and D17. -/
def Obligations.StoreResults : Prop :=
  ∀ (s : State) (rs2 rs1 : RegIdx) (imm : BitVec 12) (ea : Word), ea = s.readReg rs1 + imm.signExtend 32 →
    StoreRule s (.sb rs2 rs1 imm) ea .byte (s.readReg rs2) ∧
    StoreRule s (.sh rs2 rs1 imm) ea .half (s.readReg rs2) ∧
    StoreRule s (.sw rs2 rs1 imm) ea .word (s.readReg rs2)

/-- R250 to R256: the six branches. That the target is absolute and sign-extended, and that a misaligned one faults when
taken, are the spec's decisions D1, D2 and D4. -/
def Obligations.BranchResults : Prop :=
  ∀ (s : State) (rs1 rs2 : RegIdx) (target : BitVec 13) (a b : Word), a = s.readReg rs1 → b = s.readReg rs2 →
    BranchRule s (.beq rs1 rs2 target) (a = b) (target.signExtend 32) ∧
    BranchRule s (.bne rs1 rs2 target) (a ≠ b) (target.signExtend 32) ∧
    BranchRule s (.blt rs1 rs2 target) (a.toInt < b.toInt) (target.signExtend 32) ∧
    BranchRule s (.bge rs1 rs2 target) (¬ a.toInt < b.toInt) (target.signExtend 32) ∧
    BranchRule s (.bltu rs1 rs2 target) (a.toNat < b.toNat) (target.signExtend 32) ∧
    BranchRule s (.bgeu rs1 rs2 target) (¬ a.toNat < b.toNat) (target.signExtend 32)

/-- R261, R262: jal to its absolute target, jalr to x[rs1] (read before the link is written) plus its immediate. The target
conventions and the fault are the spec's decisions D1, D2, D3 and D4; that jalr's target is fixed so is log 14. -/
def Obligations.JumpResults : Prop :=
  ∀ (s : State) (rd rs1 : RegIdx) (target : BitVec 21) (imm : BitVec 12),
    JumpRule s (.jal rd target) rd (target.signExtend 32) ∧
    JumpRule s (.jalr rd rs1 imm) rd (s.readReg rs1 + imm.signExtend 32)

/-- R270: lui completes in every state and writes its immediate over twelve zero bits; that pc advances by 4 is the spec's
decision D19. -/
def Obligations.LuiResult : Prop :=
  ∀ (s : State) (rd : RegIdx) (imm : BitVec 20), CompletesWith s (.lui rd imm) rd (imm.setWidth 32 <<< 12)

/-- R276: halt has the word the rule gives, completes in every state, sets the halt flag and changes nothing else, pc
included; the following step answers `Halted`. The zero bits of the word are the spec's decision D7; the `Halted` answer is
D33 (log 4). -/
def Obligations.HaltResult : Prop :=
  ∀ s : State, encode s.customOpcode .halt = (0#17 ++ 0b000#3 ++ 0b00000#5 ++ s.customOpcode : Word) ∧
    exec .halt s = .next { s with haltFlag := true } ∧ step { s with haltFlag := true } = .fault .halted

/-- R277: print has the word the rule gives, its register in the rd field, completes in every state, appends the register's
whole value to the output stream, advances pc by 4 and changes nothing else. That the whole value becomes observable in the
output stream is the spec's decision D20 (log 17); the seventeen zero bits of the word are D7. -/
def Obligations.PrintResult : Prop :=
  ∀ (s : State) (rs : RegIdx), encode s.customOpcode (.print rs) = (0#17 ++ 0b001#3 ++ rs ++ s.customOpcode : Word) ∧
    exec (.print rs) s = .next { s with out := s.out ++ [s.readReg rs], pc := s.pc + 4#32 }

/-! ## Encoding -/

/-- R154: decoding the word of a well-formed instruction gives the instruction back, for every legal CUSTOM_OPCODE. -/
def Obligations.DecodeOfEncode : Prop :=
  ∀ (custom : Opcode) (i : Instr), validCustomOpcode custom = true → i.wf = true → decode custom (encode custom i) = .ok i

/-- R118: a word that decodes is the word of the instruction it decodes to, which is well-formed: the decoder drops no bit. -/
def Obligations.EncodeOfDecode : Prop :=
  ∀ (custom : Opcode) (w : Word) (i : Instr), decode custom w = .ok i → i.wf = true ∧ encode custom i = w

/-- R117, R118: at the default CUSTOM_OPCODE a word decodes exactly when it matches a row of the opcode table in every
selecting field, and then to an instruction of that row. -/
def Obligations.DecodeMatchesOpcodeTable : Prop :=
  (∀ (w : Word) (i : Instr), decode 0b0001011#7 w = .ok i →
    i.tableRow ∈ tableRows ∧ w &&& i.tableRow.2 = i.tableRow.1) ∧
  (∀ (w : Word) (row : Word × Word), row ∈ tableRows → w &&& row.2 = row.1 →
    ∃ i, decode 0b0001011#7 w = .ok i ∧ i.tableRow = row)

/-- R118: no word matches two rows of the opcode table: of any two rows some bit that both select differs. -/
def Obligations.OpcodeTableRowsDisjoint : Prop :=
  tableRows.Pairwise fun r q => (r.1 ^^^ q.1) &&& r.2 &&& q.2 ≠ 0#32

/-- R141 to R150: the words the spec writes out for its examples decode to the instructions they stand for. -/
def Obligations.ExampleWordsDecode : Prop :=
  decode 0b0001011#7 0x002081B3#32 = .ok (.add 3#5 1#5 2#5) ∧
  decode 0b0001011#7 0x402081B3#32 = .ok (.sub 3#5 1#5 2#5) ∧
  decode 0b0001011#7 0xFFF00293#32 = .ok (.addi 5#5 0#5 (BitVec.ofInt 12 (-1))) ∧
  decode 0b0001011#7 0x4040D293#32 = .ok (.srai 5#5 1#5 4#5) ∧
  decode 0b0001011#7 0x0040A283#32 = .ok (.lw 5#5 1#5 4#12) ∧
  decode 0b0001011#7 0x7E20AFA3#32 = .ok (.sw 2#5 1#5 2047#12) ∧
  decode 0b0001011#7 0x00208863#32 = .ok (.beq 1#5 2#5 16#13) ∧
  decode 0b0001011#7 0x040000EF#32 = .ok (.jal 1#5 64#21) ∧
  decode 0b0001011#7 0x020000E7#32 = .ok (.jalr 1#5 0#5 32#12) ∧
  decode 0b0001011#7 0x123452B7#32 = .ok (.lui 5#5 74565#20) ∧
  decode 0b0001011#7 0x0000000B#32 = .ok .halt ∧
  decode 0b0001011#7 0x0000150B#32 = .ok (.print 10#5)

/-- R108, R118: a CUSTOM_OPCODE word is halt exactly when funct3, rd and bits 31:15 are 0, print of r exactly when funct3 is
1, bits 31:15 are 0 and rd is r, and `UnsupportedCustomOp` otherwise. -/
def Obligations.CustomClassDecodes : Prop :=
  ∀ (custom : Opcode) (w : Word), w.extractLsb' 0 7 = custom →
    (decode custom w = .ok .halt ↔
      w.extractLsb' 15 17 = 0#17 ∧ w.extractLsb' 12 3 = 0#3 ∧ w.extractLsb' 7 5 = 0#5) ∧
    (∀ r : RegIdx, decode custom w = .ok (.print r) ↔
      w.extractLsb' 15 17 = 0#17 ∧ w.extractLsb' 12 3 = 1#3 ∧ w.extractLsb' 7 5 = r) ∧
    (∀ i, decode custom w = .ok i → i = .halt ∨ ∃ r, i = .print r) ∧
    (∀ k, decode custom w = .error k → k = .unsupportedCustomOp)

/-- R120: the illegal encodings the rule lists, for every legal CUSTOM_OPCODE: absent canonical opcodes, OP and shift words
with another funct7, unused funct3 values, every other major opcode and every word whose low bits are not 11. -/
def Obligations.IllegalWordsDoNotDecode : Prop :=
  ∀ (custom : Opcode) (w : Word), validCustomOpcode custom = true → w.extractLsb' 0 7 ≠ custom →
    (w.extractLsb' 0 7 ∈ [0b0010111#7, 0b0001111#7, 0b1110011#7] → decode custom w = .error .unsupportedOpcode) ∧
    (w.extractLsb' 0 7 = 0x33#7 → w.extractLsb' 25 7 ∉ [0b0000000#7, 0b0100000#7] →
      decode custom w = .error .unsupportedOpcode) ∧
    (w.extractLsb' 0 7 = 0x33#7 → w.extractLsb' 25 7 = 0b0100000#7 → w.extractLsb' 12 3 ∉ [0b000#3, 0b101#3] →
      decode custom w = .error .unsupportedOpcode) ∧
    (w.extractLsb' 0 7 = 0x13#7 → w.extractLsb' 12 3 = 0b001#3 → w.extractLsb' 25 7 ≠ 0b0000000#7 →
      decode custom w = .error .unsupportedOpcode) ∧
    (w.extractLsb' 0 7 = 0x13#7 → w.extractLsb' 12 3 = 0b101#3 →
      w.extractLsb' 25 7 ∉ [0b0000000#7, 0b0100000#7] → decode custom w = .error .unsupportedOpcode) ∧
    (w.extractLsb' 0 7 = 0x03#7 → w.extractLsb' 12 3 ∈ [3#3, 6#3, 7#3] →
      decode custom w = .error .unsupportedOpcode) ∧
    (w.extractLsb' 0 7 = 0x23#7 → w.extractLsb' 12 3 ∈ [3#3, 4#3, 5#3, 6#3, 7#3] →
      decode custom w = .error .unsupportedOpcode) ∧
    (w.extractLsb' 0 7 = 0x63#7 → w.extractLsb' 12 3 ∈ [2#3, 3#3] → decode custom w = .error .unsupportedOpcode) ∧
    (w.extractLsb' 0 7 = 0x67#7 → w.extractLsb' 12 3 ≠ 0#3 → decode custom w = .error .unsupportedOpcode) ∧
    (w.extractLsb' 0 7 ∉ majorOpcodes → decode custom w = .error .unsupportedOpcode) ∧
    (w.extractLsb' 0 2 ≠ 0b11#2 → decode custom w = .error .unsupportedOpcode)

/-- R105, R106: which bit of a branch and of a jal target stands at which bit of the word, the operand fields around it. -/
def Obligations.TargetBitPlacement : Prop :=
  ∀ (custom : Opcode) (rs1 rs2 rd : RegIdx) (t : BitVec 13) (j : BitVec 21) (i : Instr),
    i ∈ [Instr.beq rs1 rs2 t, .bne rs1 rs2 t, .blt rs1 rs2 t, .bge rs1 rs2 t, .bltu rs1 rs2 t, .bgeu rs1 rs2 t] →
    ((encode custom i).extractLsb' 31 1 = t.extractLsb' 12 1 ∧ (encode custom i).extractLsb' 25 6 = t.extractLsb' 5 6 ∧
      (encode custom i).extractLsb' 20 5 = rs2 ∧ (encode custom i).extractLsb' 15 5 = rs1 ∧
      (encode custom i).extractLsb' 8 4 = t.extractLsb' 1 4 ∧ (encode custom i).extractLsb' 7 1 = t.extractLsb' 11 1) ∧
    ((encode custom (.jal rd j)).extractLsb' 31 1 = j.extractLsb' 20 1 ∧
      (encode custom (.jal rd j)).extractLsb' 21 10 = j.extractLsb' 1 10 ∧
      (encode custom (.jal rd j)).extractLsb' 20 1 = j.extractLsb' 11 1 ∧
      (encode custom (.jal rd j)).extractLsb' 12 8 = j.extractLsb' 12 8 ∧
      (encode custom (.jal rd j)).extractLsb' 7 5 = rd)

/-! ## The assembler and the loader -/

/-- R130, R33: each numeric name and each ABI name, written out, resolves to its index; any other string fails. The spelling is
the spec's decision D22. -/
def Obligations.RegisterNamesResolve : Prop :=
  (∀ p ∈ registerNamePairs, resolveReg p.1.toList = .ok (BitVec.ofNat 5 p.2)) ∧
  (∀ name : List Char, (∀ p ∈ registerNamePairs, p.1.toList ≠ name) → resolveReg name = .error .unknownRegister)

/-- R138, R154: for each mnemonic, which lines of its operand count the encoder accepts and which instruction each of them is:
the mnemonic's, with the operands in R138's order and each immediate or target modulo the size of its field; and a word that
the encoder emits for any line decodes to the line's instruction. Operand order and ranges are the spec's decisions D26, D24
and D28. -/
def Obligations.AssembledWordDecodes : Prop :=
  (∀ p ∈ regMnemonics, ParsesThreeRegs p.1 p.2) ∧
  (∀ p ∈ immMnemonics, ParsesTwoRegsImm p.1 (-2048) 2047 p.2) ∧
  (∀ p ∈ shiftMnemonics, ParsesTwoRegsImm p.1 0 31 p.2) ∧
  (∀ p ∈ branchMnemonics, ParsesTwoRegsTarget p.1 (fun v => -4096 ≤ v ∧ v ≤ 4094 ∧ v % 2 = 0) p.2) ∧
  ParsesRegTarget "jal" (fun v => -1048576 ≤ v ∧ v ≤ 1048574 ∧ v % 2 = 0) .jal ∧
  ParsesTwoRegsTarget "jalr" (fun v => -2048 ≤ v ∧ v ≤ 2047) .jalr ∧
  ParsesRegImm "lui" (-524288) 1048575 .lui ∧
  (∀ syms, parseInstr syms ["halt".toList] = .ok .halt) ∧
  (∀ (syms : SymbolTable) (c : List Char) (i : Instr),
    parseInstr syms ["print".toList, c] = .ok i ↔ ∃ x, resolveReg c = .ok x ∧ i = .print x) ∧
  (∀ (custom : Opcode) (syms : SymbolTable) (tokens : List (List Char)) (w : Word),
    validCustomOpcode custom = true → encodeTokens custom syms tokens = .ok w →
    ∃ i, parseInstr syms tokens = .ok i ∧ i.wf = true ∧ decode custom w = .ok i)

/-- R137, R139, R140, R154: the field that an accepted line stores, extended as the decoder extends it, is the value of its
literal or target modulo 2^32; lui's is the value over twelve zero bits; a shift amount is the value. Decimal digits are read
as the number they write. The literals' syntax and the ranges are the spec's decisions D23 and D24. -/
def Obligations.OperandValuesSurvive : Prop :=
  (∀ n : Nat, intLiteral (Nat.toDigits 10 n) = some (n : Int) ∧ intLiteral ('-' :: Nat.toDigits 10 n) = some (-(n : Int))) ∧
  (∀ p ∈ immMnemonics, ∀ (syms : SymbolTable) (ta tb c : List Char) (i : Instr),
    parseInstr syms [p.1.toList, ta, tb, c] = .ok i →
    ∃ x y f v, i = p.2 x y f ∧ intLiteral c = some v ∧ f.signExtend 32 = BitVec.ofInt 32 v) ∧
  (∀ p ∈ shiftMnemonics, ∀ (syms : SymbolTable) (ta tb c : List Char) (i : Instr),
    parseInstr syms [p.1.toList, ta, tb, c] = .ok i →
    ∃ x y f v, i = p.2 x y f ∧ intLiteral c = some v ∧ (f.toNat : Int) = v) ∧
  (∀ p ∈ branchMnemonics, ∀ (syms : SymbolTable) (ta tb c : List Char) (i : Instr),
    parseInstr syms [p.1.toList, ta, tb, c] = .ok i →
    ∃ x y f v, i = p.2 x y f ∧ TargetMeans syms c v ∧ f.signExtend 32 = BitVec.ofInt 32 v) ∧
  (∀ (syms : SymbolTable) (ta c : List Char) (i : Instr), parseInstr syms ["jal".toList, ta, c] = .ok i →
    ∃ x f v, i = .jal x f ∧ TargetMeans syms c v ∧ f.signExtend 32 = BitVec.ofInt 32 v) ∧
  (∀ (syms : SymbolTable) (ta tb c : List Char) (i : Instr), parseInstr syms ["jalr".toList, ta, tb, c] = .ok i →
    ∃ x y f v, i = .jalr x y f ∧ TargetMeans syms c v ∧ f.signExtend 32 = BitVec.ofInt 32 v) ∧
  (∀ (syms : SymbolTable) (ta c : List Char) (i : Instr), parseInstr syms ["lui".toList, ta, c] = .ok i →
    ∃ x f v, i = .lui x f ∧ intLiteral c = some v ∧ f.setWidth 32 <<< 12 = BitVec.ofInt 32 (v * 4096))

/-- R132, R133, R16: pass 1 binds a label to four times the number of instruction lines before it, as a 32-bit address. That
addresses begin at 0 is the spec's decision D32; the reduction modulo 2^32 is log 12. -/
def Obligations.LabelBindsNextAddress : Prop :=
  ∀ (before after : List SourceLine) (l : List Char) (syms : SymbolTable),
    passOne (before ++ .label l :: after) = .ok syms → resolveSym syms l = .ok (BitVec.ofNat 32 (4 * instrCount before))

/-- R132, D27: a label declared twice is rejected in pass 1. -/
def Obligations.DuplicateLabelRejected : Prop :=
  ∀ (before between after : List SourceLine) (l : List Char),
    ∃ n, passOne (before ++ .label l :: (between ++ .label l :: after)) = .error ⟨n, .malformedLine⟩

/-- R135: an accepted program has one word for each instruction line. -/
def Obligations.OneWordPerInstructionLine : Prop :=
  ∀ (custom : Opcode) (lines : List SourceLine) (ws : List Word),
    assembleLines custom lines = .ok ws → ws.length = instrCount lines

/-- R155, R133: a line's word depends only on the addresses its labels resolve to, not on the order or the place in which
the labels were defined. -/
def Obligations.WordDependsOnAddressesOnly : Prop :=
  ∀ (custom : Opcode) (syms syms' : SymbolTable) (tokens : List (List Char)),
    (∀ name, resolveSym syms name = resolveSym syms' name) →
    encodeTokens custom syms tokens = encodeTokens custom syms' tokens

/-- R151, R153: an unknown mnemonic, a pseudo-instruction's among them, is `UnknownOpcode` whatever its operands are; a known
one with the wrong number of operands is `MalformedLine` whatever they are. -/
def Obligations.EncoderErrorOrder : Prop :=
  (∀ (syms : SymbolTable) (m : List Char) (operands : List (List Char)), lookupName m mnemonicForms = none →
    parseInstr syms (m :: operands) = .error .unknownOpcode) ∧
  (∀ m ∈ ["nop".toList, "mv".toList, "li".toList, "j".toList, "ret".toList], lookupName m mnemonicForms = none) ∧
  (∀ (syms : SymbolTable) (m : List Char) (form : OperandForm) (operands : List (List Char)),
    lookupName m mnemonicForms = some form → operands.length ≠ formArity form →
    parseInstr syms (m :: operands) = .error .malformedLine)

/-- R152, R341: the loader accepts the assembler's output text and reads the same words. -/
def Obligations.LoaderReadsAssemblerOutput : Prop :=
  ∀ ws : List Word, ws.length ≤ 1073741824 → parseProgram (outputText ws) = some ws
end

