-- ==== Sys2Proof/Laws/Assembler.lean ====
section
/-! SUPPORT. What each operation of the encoder answers, said once: lookups, commas, operand values, and pass 1's table. -/

namespace Sys2Proof.Machine

/-- A name that a list does not hold is not found. -/
theorem lookupName_eq_none {α : Type} (name : List Char) (l : List (List Char × α)) (h : ∀ p ∈ l, p.1 ≠ name) :
    lookupName name l = none := by
  induction l with
  | nil => rfl
  | cons p r ih =>
    rw [lookupName, if_neg (h p (by simp)), ih fun q hq => h q (by simp [hq])]

/-- What a lookup finds stands in the list under that name. -/
theorem lookupName_mem {α : Type} {name : List Char} {l : List (List Char × α)} {v : α}
    (h : lookupName name l = some v) : (name, v) ∈ l := by
  induction l with
  | nil => cases h
  | cons p r ih =>
    rw [lookupName] at h
    split at h
    · rename_i e
      cases h
      subst e
      exact List.mem_cons_self
    · exact List.mem_cons_of_mem _ (ih h)

/-- A sequence of two checks succeeds exactly when the first does and the second does on its value. -/
theorem except_bind_ok_iff {ε α β : Type} {x : Except ε α} {f : α → Except ε β} {b : β} :
    (x >>= f) = .ok b ↔ ∃ a, x = .ok a ∧ f a = .ok b := by
  cases x with
  | error e => exact ⟨fun h => (nomatch h), fun ⟨_, h, _⟩ => (nomatch h)⟩
  | ok a => exact ⟨fun h => ⟨a, rfl, h⟩, fun ⟨_, h, h'⟩ => by cases h; exact h'⟩

/-- An accepted integer operand is a literal whose value is in the range (R139). -/
theorem immOperand_ok_iff {lo hi v : Int} {tok : List Char} :
    immOperand lo hi tok = .ok v ↔ intLiteral tok = some v ∧ lo ≤ v ∧ v ≤ hi := by
  unfold immOperand
  cases intLiteral tok with
  | none => simp
  | some w =>
    by_cases h : lo ≤ w ∧ w ≤ hi
    · simp only [h, and_self, if_true, Except.ok.injEq, Option.some.injEq]
      exact ⟨fun e => e ▸ ⟨rfl, h⟩, fun e => e.1⟩
    · simp only [h, if_false, Option.some.injEq, reduceCtorEq, false_iff]
      rintro ⟨rfl, e⟩
      exact h e

/-- A target's value is a literal's, or else a defined label's address as an unsigned integer (R140). -/
theorem targetValue_ok_iff {syms : SymbolTable} {tok : List Char} {v : Int} :
    targetValue syms tok = .ok v ↔
      intLiteral tok = some v ∨ (intLiteral tok = none ∧ ∃ a : Word, resolveSym syms tok = .ok a ∧ v = a.toNat) := by
  unfold targetValue
  cases intLiteral tok <;> cases resolveSym syms tok <;> simp [eq_comm]

/-- An accepted target operand has a value that is in the range and, where required, even (R140). -/
theorem targetOperand_ok_iff {syms : SymbolTable} {lo hi v : Int} {even : Bool} {tok : List Char} :
    targetOperand syms lo hi even tok = .ok v ↔
      targetValue syms tok = .ok v ∧ lo ≤ v ∧ v ≤ hi ∧ (even = true → v % 2 = 0) := by
  unfold targetOperand
  cases targetValue syms tok with
  | error k => simp
  | ok w =>
    simp only [Except.ok.injEq]
    split
    · rename_i h
      simp only [Except.ok.injEq]
      exact ⟨fun e => e ▸ ⟨rfl, h⟩, fun e => e.1⟩
    · rename_i h
      simp only [reduceCtorEq, false_iff]
      rintro ⟨rfl, e⟩
      exact h e

/-- Two operands: the first without its comma, the last ending in none (R136). -/
theorem stripOperands_two (ta c : List Char) :
    stripOperands [ta, c] = if c.getLast? = some ',' then none else some [stripComma ta, c] := by
  simp only [stripOperands]
  by_cases h : c.getLast? = some ',' <;> simp [h]

/-- Three operands: the first two without their commas, the last ending in none (R136). -/
theorem stripOperands_three (ta tb c : List Char) :
    stripOperands [ta, tb, c] = if c.getLast? = some ',' then none else some [stripComma ta, stripComma tb, c] := by
  simp only [stripOperands]
  by_cases h : c.getLast? = some ',' <;> simp [h]

/-- The number of operands is kept (R136). -/
theorem length_stripOperands {a b : List (List Char)} (h : stripOperands a = some b) : b.length = a.length := by
  induction a generalizing b with
  | nil => cases h; rfl
  | cons x r ih =>
    cases r with
    | nil =>
      rw [stripOperands] at h
      split at h <;> cases h
      rfl
    | cons y r =>
      rw [stripOperands] at h
      split at h
      · rename_i ts hs
        cases h
        exact congrArg (· + 1) (ih hs)
      · cases h
      · simp

/-- A line whose mnemonic has an operand list: its operands make the instruction (R138). -/
theorem parseInstr_of_form {syms : SymbolTable} {m : List Char} {operands : List (List Char)} {form : OperandForm}
    (h : lookupName m mnemonicForms = some form) :
    parseInstr syms (m :: operands) =
      match stripOperands operands with
      | none => .error .malformedLine
      | some ts => buildInstr syms form ts := by
  cases hs : stripOperands operands <;> simp only [parseInstr, h, hs]

/-- A label that is in the table keeps its address through the rest of pass 1 (R132, R133). -/
theorem passOneFrom_keeps {n : Nat} {addr a : Word} {syms out : SymbolTable} {lines : List SourceLine} {l : List Char}
    (h : passOneFrom n addr syms lines = .ok out) (hl : lookupName l syms = some a) : lookupName l out = some a := by
  induction lines generalizing n addr syms with
  | nil => cases h; exact hl
  | cons x r ih =>
    cases x with
    | blank => exact ih h hl
    | instruction => exact ih h hl
    | malformed => cases h
    | label m =>
      rw [passOneFrom] at h
      split at h
      · cases h
      · rename_i hn
        refine ih h ?_
        rw [defineSymbol, lookupName]
        split
        · rename_i e
          subst e
          simp [hl] at hn
        · exact hl

end Sys2Proof.Machine
end

