-- ==== Sys2Proof/Laws/Encoding.lean ====
section
/-! SUPPORT. The fields of an encoded word, format by format: what the decoder extracts is what the encoder placed
(30_encoding.md R102 to R108). -/

namespace Sys2Proof

/-! The opcode field of every format. -/

theorem opcodeOf_encodeR (f7 : BitVec 7) (rs2 rs1 : RegIdx) (f3 : BitVec 3) (rd : RegIdx) (op : Opcode) :
    opcodeOf (encodeR f7 rs2 rs1 f3 rd op) = op := by
  exact (BitVec.extractLsb'_append_eq_of_add_le (by decide)).trans BitVec.extractLsb'_eq_self
theorem opcodeOf_encodeI (imm : BitVec 12) (rs1 : RegIdx) (f3 : BitVec 3) (rd : RegIdx) (op : Opcode) :
    opcodeOf (encodeI imm rs1 f3 rd op) = op := by
  exact (BitVec.extractLsb'_append_eq_of_add_le (by decide)).trans BitVec.extractLsb'_eq_self
theorem opcodeOf_encodeS (imm : BitVec 12) (rs2 rs1 : RegIdx) (f3 : BitVec 3) :
    opcodeOf (encodeS imm rs2 rs1 f3) = opStore := by
  exact (BitVec.extractLsb'_append_eq_of_add_le (by decide)).trans BitVec.extractLsb'_eq_self
theorem opcodeOf_encodeB (t : BitVec 13) (rs2 rs1 : RegIdx) (f3 : BitVec 3) :
    opcodeOf (encodeB t rs2 rs1 f3) = opBranch := by
  exact (BitVec.extractLsb'_append_eq_of_add_le (by decide)).trans BitVec.extractLsb'_eq_self
theorem opcodeOf_encodeJ (t : BitVec 21) (rd : RegIdx) : opcodeOf (encodeJ t rd) = opJal := by
  exact (BitVec.extractLsb'_append_eq_of_add_le (by decide)).trans BitVec.extractLsb'_eq_self
theorem opcodeOf_encodeU (imm : BitVec 20) (rd : RegIdx) : opcodeOf (encodeU imm rd) = opLui := by
  exact (BitVec.extractLsb'_append_eq_of_add_le (by decide)).trans BitVec.extractLsb'_eq_self
theorem opcodeOf_encodeCustom (f3 : BitVec 3) (rd : RegIdx) (custom : Opcode) :
    opcodeOf (encodeCustom f3 rd custom) = custom := by
  exact (BitVec.extractLsb'_append_eq_of_add_le (by decide)).trans BitVec.extractLsb'_eq_self

/-! R-type (R102). -/

theorem rdOf_encodeR (f7 : BitVec 7) (rs2 rs1 : RegIdx) (f3 : BitVec 3) (rd : RegIdx) (op : Opcode) :
    rdOf (encodeR f7 rs2 rs1 f3 rd op) = rd := by
  repeat first
    | exact BitVec.extractLsb'_eq_self
    | refine (BitVec.extractLsb'_append_eq_of_le (by decide)).trans ?_
    | refine (BitVec.extractLsb'_append_eq_of_add_le (by decide)).trans ?_
theorem funct3Of_encodeR (f7 : BitVec 7) (rs2 rs1 : RegIdx) (f3 : BitVec 3) (rd : RegIdx) (op : Opcode) :
    funct3Of (encodeR f7 rs2 rs1 f3 rd op) = f3 := by
  repeat first
    | exact BitVec.extractLsb'_eq_self
    | refine (BitVec.extractLsb'_append_eq_of_le (by decide)).trans ?_
    | refine (BitVec.extractLsb'_append_eq_of_add_le (by decide)).trans ?_
theorem rs1Of_encodeR (f7 : BitVec 7) (rs2 rs1 : RegIdx) (f3 : BitVec 3) (rd : RegIdx) (op : Opcode) :
    rs1Of (encodeR f7 rs2 rs1 f3 rd op) = rs1 := by
  repeat first
    | exact BitVec.extractLsb'_eq_self
    | refine (BitVec.extractLsb'_append_eq_of_le (by decide)).trans ?_
    | refine (BitVec.extractLsb'_append_eq_of_add_le (by decide)).trans ?_
theorem rs2Of_encodeR (f7 : BitVec 7) (rs2 rs1 : RegIdx) (f3 : BitVec 3) (rd : RegIdx) (op : Opcode) :
    rs2Of (encodeR f7 rs2 rs1 f3 rd op) = rs2 := by
  repeat first
    | exact BitVec.extractLsb'_eq_self
    | refine (BitVec.extractLsb'_append_eq_of_le (by decide)).trans ?_
    | refine (BitVec.extractLsb'_append_eq_of_add_le (by decide)).trans ?_
theorem shamtOf_encodeR (f7 : BitVec 7) (rs2 rs1 : RegIdx) (f3 : BitVec 3) (rd : RegIdx) (op : Opcode) :
    shamtOf (encodeR f7 rs2 rs1 f3 rd op) = rs2 := by
  repeat first
    | exact BitVec.extractLsb'_eq_self
    | refine (BitVec.extractLsb'_append_eq_of_le (by decide)).trans ?_
    | refine (BitVec.extractLsb'_append_eq_of_add_le (by decide)).trans ?_
theorem funct7Of_encodeR (f7 : BitVec 7) (rs2 rs1 : RegIdx) (f3 : BitVec 3) (rd : RegIdx) (op : Opcode) :
    funct7Of (encodeR f7 rs2 rs1 f3 rd op) = f7 := by
  repeat first
    | exact BitVec.extractLsb'_eq_self
    | refine (BitVec.extractLsb'_append_eq_of_le (by decide)).trans ?_

/-! I-type (R103). -/

theorem rdOf_encodeI (imm : BitVec 12) (rs1 : RegIdx) (f3 : BitVec 3) (rd : RegIdx) (op : Opcode) :
    rdOf (encodeI imm rs1 f3 rd op) = rd := by
  repeat first
    | exact BitVec.extractLsb'_eq_self
    | refine (BitVec.extractLsb'_append_eq_of_le (by decide)).trans ?_
    | refine (BitVec.extractLsb'_append_eq_of_add_le (by decide)).trans ?_
theorem funct3Of_encodeI (imm : BitVec 12) (rs1 : RegIdx) (f3 : BitVec 3) (rd : RegIdx) (op : Opcode) :
    funct3Of (encodeI imm rs1 f3 rd op) = f3 := by
  repeat first
    | exact BitVec.extractLsb'_eq_self
    | refine (BitVec.extractLsb'_append_eq_of_le (by decide)).trans ?_
    | refine (BitVec.extractLsb'_append_eq_of_add_le (by decide)).trans ?_
theorem rs1Of_encodeI (imm : BitVec 12) (rs1 : RegIdx) (f3 : BitVec 3) (rd : RegIdx) (op : Opcode) :
    rs1Of (encodeI imm rs1 f3 rd op) = rs1 := by
  repeat first
    | exact BitVec.extractLsb'_eq_self
    | refine (BitVec.extractLsb'_append_eq_of_le (by decide)).trans ?_
    | refine (BitVec.extractLsb'_append_eq_of_add_le (by decide)).trans ?_
theorem immIOf_encodeI (imm : BitVec 12) (rs1 : RegIdx) (f3 : BitVec 3) (rd : RegIdx) (op : Opcode) :
    immIOf (encodeI imm rs1 f3 rd op) = imm := by
  repeat first
    | exact BitVec.extractLsb'_eq_self
    | refine (BitVec.extractLsb'_append_eq_of_le (by decide)).trans ?_

/-! S-type (R104). -/

theorem funct3Of_encodeS (imm : BitVec 12) (rs2 rs1 : RegIdx) (f3 : BitVec 3) :
    funct3Of (encodeS imm rs2 rs1 f3) = f3 := by
  repeat first
    | exact BitVec.extractLsb'_eq_self
    | refine (BitVec.extractLsb'_append_eq_of_le (by decide)).trans ?_
    | refine (BitVec.extractLsb'_append_eq_of_add_le (by decide)).trans ?_
theorem rs1Of_encodeS (imm : BitVec 12) (rs2 rs1 : RegIdx) (f3 : BitVec 3) :
    rs1Of (encodeS imm rs2 rs1 f3) = rs1 := by
  repeat first
    | exact BitVec.extractLsb'_eq_self
    | refine (BitVec.extractLsb'_append_eq_of_le (by decide)).trans ?_
    | refine (BitVec.extractLsb'_append_eq_of_add_le (by decide)).trans ?_
theorem rs2Of_encodeS (imm : BitVec 12) (rs2 rs1 : RegIdx) (f3 : BitVec 3) :
    rs2Of (encodeS imm rs2 rs1 f3) = rs2 := by
  repeat first
    | exact BitVec.extractLsb'_eq_self
    | refine (BitVec.extractLsb'_append_eq_of_le (by decide)).trans ?_
    | refine (BitVec.extractLsb'_append_eq_of_add_le (by decide)).trans ?_
theorem immSOf_encodeS (imm : BitVec 12) (rs2 rs1 : RegIdx) (f3 : BitVec 3) :
    immSOf (encodeS imm rs2 rs1 f3) = imm := by
  have hi : (encodeS imm rs2 rs1 f3).extractLsb' 25 7 = imm.extractLsb' 5 7 := by
    repeat first
      | exact BitVec.extractLsb'_eq_self
      | refine (BitVec.extractLsb'_append_eq_of_le (by decide)).trans ?_
  have lo : (encodeS imm rs2 rs1 f3).extractLsb' 7 5 = imm.extractLsb' 0 5 := by
    repeat first
      | exact BitVec.extractLsb'_eq_self
      | refine (BitVec.extractLsb'_append_eq_of_le (by decide)).trans ?_
      | refine (BitVec.extractLsb'_append_eq_of_add_le (by decide)).trans ?_
  rw [immSOf, hi, lo]
  exact (BitVec.extractLsb'_append_extractLsb'_eq_extractLsb' rfl).trans BitVec.extractLsb'_eq_self

/-! B-type (R105). -/

theorem funct3Of_encodeB (t : BitVec 13) (rs2 rs1 : RegIdx) (f3 : BitVec 3) : funct3Of (encodeB t rs2 rs1 f3) = f3 := by
  repeat first
    | exact BitVec.extractLsb'_eq_self
    | refine (BitVec.extractLsb'_append_eq_of_le (by decide)).trans ?_
    | refine (BitVec.extractLsb'_append_eq_of_add_le (by decide)).trans ?_
theorem rs1Of_encodeB (t : BitVec 13) (rs2 rs1 : RegIdx) (f3 : BitVec 3) : rs1Of (encodeB t rs2 rs1 f3) = rs1 := by
  repeat first
    | exact BitVec.extractLsb'_eq_self
    | refine (BitVec.extractLsb'_append_eq_of_le (by decide)).trans ?_
    | refine (BitVec.extractLsb'_append_eq_of_add_le (by decide)).trans ?_
theorem rs2Of_encodeB (t : BitVec 13) (rs2 rs1 : RegIdx) (f3 : BitVec 3) : rs2Of (encodeB t rs2 rs1 f3) = rs2 := by
  repeat first
    | exact BitVec.extractLsb'_eq_self
    | refine (BitVec.extractLsb'_append_eq_of_le (by decide)).trans ?_
    | refine (BitVec.extractLsb'_append_eq_of_add_le (by decide)).trans ?_

/-- The decoder reads the target's bits 12 to 1 back, over a zero bit 0. -/
theorem immBOf_encodeB (t : BitVec 13) (rs2 rs1 : RegIdx) (f3 : BitVec 3) :
    immBOf (encodeB t rs2 rs1 f3) = t.extractLsb' 1 12 ++ 0#1 := by
  have a : (encodeB t rs2 rs1 f3).extractLsb' 31 1 = t.extractLsb' 12 1 := by
    repeat first
      | exact BitVec.extractLsb'_eq_self
      | refine (BitVec.extractLsb'_append_eq_of_le (by decide)).trans ?_
  have b : (encodeB t rs2 rs1 f3).extractLsb' 7 1 = t.extractLsb' 11 1 := by
    repeat first
      | exact BitVec.extractLsb'_eq_self
      | refine (BitVec.extractLsb'_append_eq_of_le (by decide)).trans ?_
      | refine (BitVec.extractLsb'_append_eq_of_add_le (by decide)).trans ?_
  have c : (encodeB t rs2 rs1 f3).extractLsb' 25 6 = t.extractLsb' 5 6 := by
    repeat first
      | exact BitVec.extractLsb'_eq_self
      | refine (BitVec.extractLsb'_append_eq_of_le (by decide)).trans ?_
      | refine (BitVec.extractLsb'_append_eq_of_add_le (by decide)).trans ?_
  have d : (encodeB t rs2 rs1 f3).extractLsb' 8 4 = t.extractLsb' 1 4 := by
    repeat first
      | exact BitVec.extractLsb'_eq_self
      | refine (BitVec.extractLsb'_append_eq_of_le (by decide)).trans ?_
      | refine (BitVec.extractLsb'_append_eq_of_add_le (by decide)).trans ?_
  have e : t.extractLsb' 12 1 ++ t.extractLsb' 11 1 = t.extractLsb' 11 2 :=
    BitVec.extractLsb'_append_extractLsb'_eq_extractLsb' rfl
  have f : t.extractLsb' 11 2 ++ t.extractLsb' 5 6 = t.extractLsb' 5 8 :=
    BitVec.extractLsb'_append_extractLsb'_eq_extractLsb' rfl
  have g : t.extractLsb' 5 8 ++ t.extractLsb' 1 4 = t.extractLsb' 1 12 :=
    BitVec.extractLsb'_append_extractLsb'_eq_extractLsb' rfl
  rw [immBOf, a, b, c, d, ← g, ← f, ← e]

/-! J-type (R106). -/

theorem rdOf_encodeJ (t : BitVec 21) (rd : RegIdx) : rdOf (encodeJ t rd) = rd := by
  repeat first
    | exact BitVec.extractLsb'_eq_self
    | refine (BitVec.extractLsb'_append_eq_of_le (by decide)).trans ?_
    | refine (BitVec.extractLsb'_append_eq_of_add_le (by decide)).trans ?_

/-- The decoder reads the target's bits 20 to 1 back, over a zero bit 0. -/
theorem immJOf_encodeJ (t : BitVec 21) (rd : RegIdx) : immJOf (encodeJ t rd) = t.extractLsb' 1 20 ++ 0#1 := by
  have a : (encodeJ t rd).extractLsb' 31 1 = t.extractLsb' 20 1 := by
    repeat first
      | exact BitVec.extractLsb'_eq_self
      | refine (BitVec.extractLsb'_append_eq_of_le (by decide)).trans ?_
  have b : (encodeJ t rd).extractLsb' 12 8 = t.extractLsb' 12 8 := by
    repeat first
      | exact BitVec.extractLsb'_eq_self
      | refine (BitVec.extractLsb'_append_eq_of_le (by decide)).trans ?_
      | refine (BitVec.extractLsb'_append_eq_of_add_le (by decide)).trans ?_
  have c : (encodeJ t rd).extractLsb' 20 1 = t.extractLsb' 11 1 := by
    repeat first
      | exact BitVec.extractLsb'_eq_self
      | refine (BitVec.extractLsb'_append_eq_of_le (by decide)).trans ?_
      | refine (BitVec.extractLsb'_append_eq_of_add_le (by decide)).trans ?_
  have d : (encodeJ t rd).extractLsb' 21 10 = t.extractLsb' 1 10 := by
    repeat first
      | exact BitVec.extractLsb'_eq_self
      | refine (BitVec.extractLsb'_append_eq_of_le (by decide)).trans ?_
      | refine (BitVec.extractLsb'_append_eq_of_add_le (by decide)).trans ?_
  have e : t.extractLsb' 20 1 ++ t.extractLsb' 12 8 = t.extractLsb' 12 9 :=
    BitVec.extractLsb'_append_extractLsb'_eq_extractLsb' rfl
  have f : t.extractLsb' 12 9 ++ t.extractLsb' 11 1 = t.extractLsb' 11 10 :=
    BitVec.extractLsb'_append_extractLsb'_eq_extractLsb' rfl
  have g : t.extractLsb' 11 10 ++ t.extractLsb' 1 10 = t.extractLsb' 1 20 :=
    BitVec.extractLsb'_append_extractLsb'_eq_extractLsb' rfl
  rw [immJOf, a, b, c, d, ← g, ← f, ← e]

/-- A field of at least one bit whose bit 0 is 0 is its other bits over a zero bit. -/
theorem append_zero_of_even {n : Nat} (t : BitVec (n + 1)) (h : t.getLsbD 0 = false) :
    t.extractLsb' 1 n ++ 0#1 = t := by
  apply BitVec.eq_of_getLsbD_eq
  intro i hi
  rw [BitVec.getLsbD_append]
  by_cases h0 : i = 0
  · subst h0; simpa using h.symm
  · have h1 : ¬ i < 1 := by omega
    have h2 : i - 1 < n := by omega
    have h3 : 1 + (i - 1) = i := by omega
    simp [h1, h2, h3]

/-! U-type (R107). -/

theorem rdOf_encodeU (imm : BitVec 20) (rd : RegIdx) : rdOf (encodeU imm rd) = rd := by
  repeat first
    | exact BitVec.extractLsb'_eq_self
    | refine (BitVec.extractLsb'_append_eq_of_le (by decide)).trans ?_
    | refine (BitVec.extractLsb'_append_eq_of_add_le (by decide)).trans ?_
theorem immUOf_encodeU (imm : BitVec 20) (rd : RegIdx) : immUOf (encodeU imm rd) = imm := by
  repeat first
    | exact BitVec.extractLsb'_eq_self
    | refine (BitVec.extractLsb'_append_eq_of_le (by decide)).trans ?_

/-! Custom words (R108). -/

theorem rdOf_encodeCustom (f3 : BitVec 3) (rd : RegIdx) (custom : Opcode) : rdOf (encodeCustom f3 rd custom) = rd := by
  repeat first
    | exact BitVec.extractLsb'_eq_self
    | refine (BitVec.extractLsb'_append_eq_of_le (by decide)).trans ?_
    | refine (BitVec.extractLsb'_append_eq_of_add_le (by decide)).trans ?_
theorem funct3Of_encodeCustom (f3 : BitVec 3) (rd : RegIdx) (custom : Opcode) :
    funct3Of (encodeCustom f3 rd custom) = f3 := by
  repeat first
    | exact BitVec.extractLsb'_eq_self
    | refine (BitVec.extractLsb'_append_eq_of_le (by decide)).trans ?_
    | refine (BitVec.extractLsb'_append_eq_of_add_le (by decide)).trans ?_
theorem reserved_encodeCustom (f3 : BitVec 3) (rd : RegIdx) (custom : Opcode) :
    (encodeCustom f3 rd custom).extractLsb' 15 17 = 0#17 := by
  repeat first
    | exact BitVec.extractLsb'_eq_self
    | refine (BitVec.extractLsb'_append_eq_of_le (by decide)).trans ?_

end Sys2Proof
end

