-- ==== Sys2Proof/Laws/State.lean ====
section
/-! SUPPORT. The small lemmas of the register file and of the state's updates: one per field per update, and the read
after write of a register. -/

namespace Sys2Proof.Machine

/-! `setPc` and `advancePc`. -/

@[simp] theorem setPc_pc (s : State) (t : Word) : (s.setPc t).pc = t := rfl
@[simp] theorem setPc_regs (s : State) (t : Word) : (s.setPc t).regs = s.regs := rfl
@[simp] theorem setPc_dmem (s : State) (t : Word) : (s.setPc t).dmem = s.dmem := rfl
@[simp] theorem setPc_dmemSize (s : State) (t : Word) : (s.setPc t).dmemSize = s.dmemSize := rfl
@[simp] theorem setPc_imem (s : State) (t : Word) : (s.setPc t).imem = s.imem := rfl
@[simp] theorem setPc_haltFlag (s : State) (t : Word) : (s.setPc t).haltFlag = s.haltFlag := rfl
@[simp] theorem setPc_out (s : State) (t : Word) : (s.setPc t).out = s.out := rfl
@[simp] theorem setPc_customOpcode (s : State) (t : Word) : (s.setPc t).customOpcode = s.customOpcode := rfl
@[simp] theorem setPc_readReg (s : State) (t : Word) (r : RegIdx) : (s.setPc t).readReg r = s.readReg r := rfl

@[simp] theorem advancePc_pc (s : State) : s.advancePc.pc = s.pc + 4#32 := rfl
@[simp] theorem advancePc_regs (s : State) : s.advancePc.regs = s.regs := rfl
@[simp] theorem advancePc_dmem (s : State) : s.advancePc.dmem = s.dmem := rfl
@[simp] theorem advancePc_dmemSize (s : State) : s.advancePc.dmemSize = s.dmemSize := rfl
@[simp] theorem advancePc_imem (s : State) : s.advancePc.imem = s.imem := rfl
@[simp] theorem advancePc_haltFlag (s : State) : s.advancePc.haltFlag = s.haltFlag := rfl
@[simp] theorem advancePc_out (s : State) : s.advancePc.out = s.out := rfl
@[simp] theorem advancePc_customOpcode (s : State) : s.advancePc.customOpcode = s.customOpcode := rfl
@[simp] theorem advancePc_readReg (s : State) (r : RegIdx) : s.advancePc.readReg r = s.readReg r := rfl

/-! `setHalted`. -/

@[simp] theorem setHalted_pc (s : State) : s.setHalted.pc = s.pc := rfl
@[simp] theorem setHalted_regs (s : State) : s.setHalted.regs = s.regs := rfl
@[simp] theorem setHalted_dmem (s : State) : s.setHalted.dmem = s.dmem := rfl
@[simp] theorem setHalted_dmemSize (s : State) : s.setHalted.dmemSize = s.dmemSize := rfl
@[simp] theorem setHalted_imem (s : State) : s.setHalted.imem = s.imem := rfl
@[simp] theorem setHalted_haltFlag (s : State) : s.setHalted.haltFlag = true := rfl
@[simp] theorem setHalted_out (s : State) : s.setHalted.out = s.out := rfl
@[simp] theorem setHalted_customOpcode (s : State) : s.setHalted.customOpcode = s.customOpcode := rfl
@[simp] theorem setHalted_readReg (s : State) (r : RegIdx) : s.setHalted.readReg r = s.readReg r := rfl

/-! `emit`. -/

@[simp] theorem emit_pc (s : State) (v : Word) : (s.emit v).pc = s.pc := rfl
@[simp] theorem emit_regs (s : State) (v : Word) : (s.emit v).regs = s.regs := rfl
@[simp] theorem emit_dmem (s : State) (v : Word) : (s.emit v).dmem = s.dmem := rfl
@[simp] theorem emit_dmemSize (s : State) (v : Word) : (s.emit v).dmemSize = s.dmemSize := rfl
@[simp] theorem emit_imem (s : State) (v : Word) : (s.emit v).imem = s.imem := rfl
@[simp] theorem emit_haltFlag (s : State) (v : Word) : (s.emit v).haltFlag = s.haltFlag := rfl
@[simp] theorem emit_out (s : State) (v : Word) : (s.emit v).out = s.out ++ [v] := rfl
@[simp] theorem emit_customOpcode (s : State) (v : Word) : (s.emit v).customOpcode = s.customOpcode := rfl
@[simp] theorem emit_readReg (s : State) (v : Word) (r : RegIdx) : (s.emit v).readReg r = s.readReg r := rfl

/-! `writeReg` and `readReg` (R32). -/

@[simp] theorem writeReg_zero (s : State) (v : Word) : s.writeReg 0#5 v = s := rfl

@[simp] theorem writeReg_pc (s : State) (i : RegIdx) (v : Word) : (s.writeReg i v).pc = s.pc := by
  unfold State.writeReg; split <;> rfl
@[simp] theorem writeReg_dmem (s : State) (i : RegIdx) (v : Word) : (s.writeReg i v).dmem = s.dmem := by
  unfold State.writeReg; split <;> rfl
@[simp] theorem writeReg_dmemSize (s : State) (i : RegIdx) (v : Word) : (s.writeReg i v).dmemSize = s.dmemSize := by
  unfold State.writeReg; split <;> rfl
@[simp] theorem writeReg_imem (s : State) (i : RegIdx) (v : Word) : (s.writeReg i v).imem = s.imem := by
  unfold State.writeReg; split <;> rfl
@[simp] theorem writeReg_haltFlag (s : State) (i : RegIdx) (v : Word) : (s.writeReg i v).haltFlag = s.haltFlag := by
  unfold State.writeReg; split <;> rfl
@[simp] theorem writeReg_out (s : State) (i : RegIdx) (v : Word) : (s.writeReg i v).out = s.out := by
  unfold State.writeReg; split <;> rfl
@[simp] theorem writeReg_customOpcode (s : State) (i : RegIdx) (v : Word) :
    (s.writeReg i v).customOpcode = s.customOpcode := by
  unfold State.writeReg; split <;> rfl

/-- The register file after a write to a register other than x0. -/
theorem writeReg_regs (s : State) (i : RegIdx) (v : Word) (h : i ≠ 0#5) :
    (s.writeReg i v).regs = s.regs.set i.toNat v i.isLt := by
  unfold State.writeReg
  rw [if_neg h]

/-- x0 reads as 0 (R32). -/
@[simp] theorem readReg_zero (s : State) : s.readReg 0#5 = 0#32 := rfl

/-- A register reads as it was last written (R32). -/
theorem readReg_writeReg_same (s : State) (i : RegIdx) (v : Word) (h : i ≠ 0#5) : (s.writeReg i v).readReg i = v := by
  simp [State.readReg, State.writeReg, h]

/-- A write leaves every other register alone. -/
theorem readReg_writeReg_other (s : State) (i r : RegIdx) (v : Word) (h : r ≠ i) :
    (s.writeReg i v).readReg r = s.readReg r := by
  have hn : i.toNat ≠ r.toNat := fun e => h (BitVec.eq_of_toNat_eq e).symm
  by_cases hi : i = 0#5
  · rw [hi, writeReg_zero]
  · simp only [State.readReg, writeReg_regs s i v hi]
    split
    · rfl
    · exact Vector.getElem_set_ne _ _ hn

/-- A register write keeps index 0 of the file at 0 (R32). -/
theorem writeReg_regs_zero (s : State) (i : RegIdx) (v : Word) (h : s.regs[0] = 0#32) :
    (s.writeReg i v).regs[0] = 0#32 := by
  by_cases hi : i = 0#5
  · rw [hi]; exact h
  · have hn : i.toNat ≠ 0 := fun e => hi (BitVec.eq_of_toNat_eq e)
    simp only [writeReg_regs s i v hi]
    rw [Vector.getElem_set_ne _ _ hn]
    exact h

/-! What an access and a transfer read of the state. -/

@[simp] theorem checkAccess_advancePc (s : State) (ea : Word) (n : Width) :
    s.advancePc.checkAccess ea n = s.checkAccess ea n := rfl

end Sys2Proof.Machine
end

