-- ==== Sys2Proof/Laws/Memory.lean ====
section
/-! SUPPORT. The laws of data memory: the canonical form is kept, a byte reads as it was last written, a write leaves every
other byte alone; then the same for the three widths. -/

namespace Sys2Proof.Machine

/-- A canonical list from a higher address is one from a lower address. -/
theorem wfFrom_mono {m : Memory} {low low' : Nat} (h : low' ≤ low) (hm : Memory.wfFrom low m = true) :
    Memory.wfFrom low' m = true := by
  cases m with
  | nil => rfl
  | cons c rest =>
    simp only [Memory.wfFrom, Bool.and_eq_true, decide_eq_true_eq] at hm ⊢
    exact ⟨⟨by omega, hm.1.2⟩, hm.2⟩

/-- An address below a canonical list's first is not listed. -/
theorem readByte_of_lt {m : Memory} {low a : Nat} (hm : Memory.wfFrom low m = true) (h : a < low) :
    m.readByte a = Memory.unlisted := by
  induction m generalizing low with
  | nil => rfl
  | cons c rest ih =>
    simp only [Memory.wfFrom, Bool.and_eq_true, decide_eq_true_eq] at hm
    simp only [Memory.readByte]
    rw [if_neg (by omega)]
    exact ih hm.2 (by omega)

/-- A write keeps the canonical form from any bound not above the address. -/
theorem writeByte_wfFrom {m : Memory} {low a : Nat} (b : Byte) (hm : Memory.wfFrom low m = true) (h : low ≤ a) :
    Memory.wfFrom low (m.writeByte a b) = true := by
  induction m generalizing low with
  | nil =>
    simp only [Memory.writeByte]
    split
    · rfl
    · simp_all [Memory.wfFrom]
  | cons c rest ih =>
    obtain ⟨a', b'⟩ := c
    have hm' := hm
    simp only [Memory.wfFrom, Bool.and_eq_true, decide_eq_true_eq] at hm'
    obtain ⟨⟨hlow, hb'⟩, hrest⟩ := hm'
    simp only [Memory.writeByte]
    split
    · split
      · exact hm
      · simp_all [Memory.wfFrom]
    · split
      · split
        · exact wfFrom_mono (by omega) hrest
        · rename_i hb
          simp_all [Memory.wfFrom]
      · simp only [Memory.wfFrom, Bool.and_eq_true, decide_eq_true_eq]
        exact ⟨⟨hlow, hb'⟩, ih hrest (by omega)⟩

/-- A byte write keeps the canonical form. -/
theorem writeByte_wf {m : Memory} (a : Nat) (b : Byte) (hm : m.wf = true) : (m.writeByte a b).wf = true :=
  writeByte_wfFrom b hm (Nat.zero_le a)

/-- A byte reads as it was last written, in any canonical list. -/
theorem readByte_writeByte_same {m : Memory} {low : Nat} (a : Nat) (b : Byte) (hm : Memory.wfFrom low m = true) :
    (m.writeByte a b).readByte a = b := by
  induction m generalizing low with
  | nil =>
    simp only [Memory.writeByte]
    split
    · simp_all [Memory.readByte]
    · simp [Memory.readByte]
  | cons c rest ih =>
    obtain ⟨a', b'⟩ := c
    simp only [Memory.wfFrom, Bool.and_eq_true, decide_eq_true_eq] at hm
    obtain ⟨⟨-, -⟩, hrest⟩ := hm
    simp only [Memory.writeByte]
    split
    · split
      · rename_i hlt hb
        simp only [Memory.readByte]
        rw [if_neg (by omega), readByte_of_lt hrest (by omega), hb]
      · simp [Memory.readByte]
    · split
      · rename_i hne heq
        split
        · rename_i hb
          rw [readByte_of_lt hrest (by omega), hb]
        · simp [Memory.readByte]
      · rename_i hlt hne
        simp only [Memory.readByte]
        rw [if_neg (fun e => hne e.symm)]
        exact ih hrest

/-- A byte write leaves every other address alone, in any list. -/
theorem readByte_writeByte_other (m : Memory) {a x : Nat} (b : Byte) (h : x ≠ a) :
    (m.writeByte a b).readByte x = m.readByte x := by
  induction m with
  | nil =>
    simp only [Memory.writeByte]
    split
    · rfl
    · simp only [Memory.readByte]
      rw [if_neg (fun e => h e.symm)]
  | cons c rest ih =>
    obtain ⟨a', b'⟩ := c
    simp only [Memory.writeByte]
    split
    · split
      · rfl
      · simp only [Memory.readByte]
        rw [if_neg (fun e => h e.symm)]
    · split
      · rename_i heq
        subst heq
        split
        · simp only [Memory.readByte]
          rw [if_neg (fun e => h e.symm)]
        · simp only [Memory.readByte]
          rw [if_neg (fun e => h e.symm), if_neg (fun e => h e.symm)]
      · simp only [Memory.readByte]
        rw [ih]

/-- A write below `size` keeps every listed address below `size`. -/
theorem writeByte_within {m : Memory} {size a : Nat} (b : Byte) (hm : m.within size = true) (h : a < size) :
    (m.writeByte a b).within size = true := by
  induction m with
  | nil =>
    simp only [Memory.writeByte]
    split
    · rfl
    · simp [Memory.within, h]
  | cons c rest ih =>
    obtain ⟨a', b'⟩ := c
    simp only [Memory.within, List.all_cons, Bool.and_eq_true, decide_eq_true_eq] at hm ih
    obtain ⟨ha', hrest⟩ := hm
    simp only [Memory.writeByte]
    split
    · split <;> simp [Memory.within, h, ha'] <;> simpa using hrest
    · split
      · split <;> simp [Memory.within, h] <;> simpa using hrest
      · simp only [Memory.within, List.all_cons, Bool.and_eq_true, decide_eq_true_eq]
        exact ⟨ha', ih hrest⟩

/-- A write of any width keeps the canonical form (R61). -/
theorem write_wf {m : Memory} (a : Nat) (v : Word) (n : Width) (hm : m.wf = true) : (m.write a v n).wf = true := by
  cases n with
  | byte => exact writeByte_wf _ _ hm
  | half => exact writeByte_wf _ _ (writeByte_wf _ _ hm)
  | word => exact writeByte_wf _ _ (writeByte_wf _ _ (writeByte_wf _ _ (writeByte_wf _ _ hm)))

/-- A write of any width inside `size` keeps every listed address below `size` (R61). -/
theorem write_within {m : Memory} {size : Nat} (a : Nat) (v : Word) (n : Width) (hm : m.within size = true)
    (h : a + widthBytes n ≤ size) : (m.write a v n).within size = true := by
  cases n <;> simp only [Memory.write, widthBytes] at h ⊢
  · exact writeByte_within _ hm (by omega)
  · exact writeByte_within _ (writeByte_within _ hm (by omega)) (by omega)
  · exact writeByte_within _ (writeByte_within _ (writeByte_within _ (writeByte_within _ hm (by omega)) (by omega))
      (by omega)) (by omega)

/-- A write of any width leaves every byte outside it alone (R61). -/
theorem readByte_write_outside (m : Memory) (a x : Nat) (v : Word) (n : Width) (h : x < a ∨ a + widthBytes n ≤ x) :
    (m.write a v n).readByte x = m.readByte x := by
  cases n <;> simp only [Memory.write, widthBytes] at h ⊢
  · exact readByte_writeByte_other _ _ (by omega)
  · rw [readByte_writeByte_other _ _ (by omega), readByte_writeByte_other _ _ (by omega)]
  · rw [readByte_writeByte_other _ _ (by omega), readByte_writeByte_other _ _ (by omega),
      readByte_writeByte_other _ _ (by omega), readByte_writeByte_other _ _ (by omega)]

/-- Byte `k` of a write of any width is `v[8k+7:8k]` (R61). -/
theorem readByte_write_inside {m : Memory} (a : Nat) (v : Word) (n : Width) (k : Nat) (hm : m.wf = true)
    (h : k < widthBytes n) : (m.write a v n).readByte (a + k) = v.extractLsb' (8 * k) 8 := by
  have w0 := writeByte_wf a (v.extractLsb' 0 8) hm
  cases n with
  | byte =>
    obtain rfl : k = 0 := by simp only [widthBytes] at h; omega
    exact readByte_writeByte_same _ _ hm
  | half =>
    simp only [widthBytes] at h
    simp only [Memory.write]
    obtain rfl | rfl : k = 0 ∨ k = 1 := by omega
    · rw [readByte_writeByte_other _ _ (by omega)]; exact readByte_writeByte_same _ _ hm
    · exact readByte_writeByte_same _ _ w0
  | word =>
    have w1 := writeByte_wf (a + 1) (v.extractLsb' 8 8) w0
    have w2 := writeByte_wf (a + 2) (v.extractLsb' 16 8) w1
    simp only [widthBytes] at h
    simp only [Memory.write]
    obtain rfl | rfl | rfl | rfl : k = 0 ∨ k = 1 ∨ k = 2 ∨ k = 3 := by omega
    · rw [readByte_writeByte_other _ _ (by omega), readByte_writeByte_other _ _ (by omega),
        readByte_writeByte_other _ _ (by omega)]
      exact readByte_writeByte_same _ _ hm
    · rw [readByte_writeByte_other _ _ (by omega), readByte_writeByte_other _ _ (by omega)]
      exact readByte_writeByte_same _ _ w0
    · rw [readByte_writeByte_other _ _ (by omega)]
      exact readByte_writeByte_same _ _ w1
    · exact readByte_writeByte_same _ _ w2

/-- The cells of a byte function are canonical from their base on. -/
theorem ofBytesFrom_wfFrom (f : Nat → Byte) (base n : Nat) : Memory.wfFrom base (Memory.ofBytesFrom f base n) = true := by
  induction n generalizing base with
  | zero => rfl
  | succ n ih =>
    simp only [Memory.ofBytesFrom]
    split
    · exact wfFrom_mono (Nat.le_succ base) (ih (base + 1))
    · simp_all [Memory.wfFrom]

/-- The memory of a byte function is canonical (R47). -/
theorem ofBytes_wf (size : Nat) (f : Nat → Byte) : (Memory.ofBytes size f).wf = true := ofBytesFrom_wfFrom f 0 size

/-- The byte of such a memory at each address it was made of. -/
theorem readByte_ofBytesFrom (f : Nat → Byte) (base n a : Nat) (h : base ≤ a) (h' : a < base + n) :
    (Memory.ofBytesFrom f base n).readByte a = f a := by
  induction n generalizing base with
  | zero => omega
  | succ n ih =>
    simp only [Memory.ofBytesFrom]
    by_cases hb : base = a
    · subst hb
      split
      · rename_i h0
        rw [readByte_of_lt (ofBytesFrom_wfFrom f (base + 1) n) (by omega), h0]
      · simp [Memory.readByte]
    · split
      · exact ih (base + 1) (by omega) (by omega)
      · simp only [Memory.readByte]
        rw [if_neg hb]
        exact ih (base + 1) (by omega) (by omega)

/-- Such a memory lies below its end. -/
theorem ofBytesFrom_within (f : Nat → Byte) (base n size : Nat) (h : base + n ≤ size) :
    (Memory.ofBytesFrom f base n).within size = true := by
  induction n generalizing base with
  | zero => rfl
  | succ n ih =>
    simp only [Memory.ofBytesFrom]
    split
    · exact ih (base + 1) (by omega)
    · have hr := ih (base + 1) (by omega)
      simp only [Memory.within, List.all_cons, Bool.and_eq_true, decide_eq_true_eq] at *
      exact ⟨by omega, hr⟩

/-- Reset's memory is canonical. -/
theorem reset_dmem_wf : State.reset.dmem.wf = true := rfl

end Sys2Proof.Machine
end

