-- ==== Sys2Proof/Laws/Ops.lean ====
section
/-! SUPPORT. For each shared operation one lemma that says everything it can do; the provers cite these instead of
unfolding the operations. -/

namespace Sys2Proof.Machine

/-! The parts of the state. -/

/-- A state is itself but for pc and registers. -/
theorem SameButRegs.refl (s : State) : SameButRegs s s := ⟨fun _ => rfl, rfl, rfl, rfl, rfl, rfl⟩

/-- A register write followed by a jump writes the register and pc and nothing else. -/
theorem writesReg_setPc (s : State) (rd : RegIdx) (v t : Word) : WritesReg s ((s.writeReg rd v).setPc t) rd v t where
  pc := rfl
  zero := rfl
  dest h := readReg_writeReg_same s rd v h
  others r h := readReg_writeReg_other s rd r v h
  rest := ⟨fun _ => by simp, by simp, by simp, by simp, by simp, by simp⟩

/-- A register write followed by the sequential advance writes the register and pc and nothing else. -/
theorem writesReg_advancePc (s : State) (rd : RegIdx) (v : Word) :
    WritesReg s (s.writeReg rd v).advancePc rd v (s.pc + 4#32) := by
  have h := writesReg_setPc s rd v (s.pc + 4#32)
  have e : (s.writeReg rd v).advancePc = (s.writeReg rd v).setPc (s.pc + 4#32) := by
    simp [State.advancePc, State.nextPc]
  rw [e]
  exact h

/-- A jump writes pc and nothing else. -/
theorem onlyPc_setPc (s : State) (t : Word) : OnlyPc s (s.setPc t) t :=
  ⟨rfl, fun _ => rfl, ⟨fun _ => rfl, rfl, rfl, rfl, rfl, rfl⟩⟩

/-- The sequential advance writes pc and nothing else. -/
theorem onlyPc_advancePc (s : State) : OnlyPc s s.advancePc (s.pc + 4#32) := onlyPc_setPc s _

/-! Data accesses (R63, R64). -/

/-- An access may go ahead exactly when it is aligned and in range. -/
theorem checkAccess_eq_none (s : State) (ea : Word) (n : Width) :
    s.checkAccess ea n = none ↔ ea.toNat % widthBytes n = 0 ∧ ea.toNat + widthBytes n ≤ s.dmemSize := by
  unfold State.checkAccess
  split
  · simp_all
  · split
    · simp_all
    · simp_all

/-- A misaligned access faults as such, whatever its range (R308). -/
theorem checkAccess_misaligned (s : State) (ea : Word) (n : Width) (h : ea.toNat % widthBytes n ≠ 0) :
    s.checkAccess ea n = some .misalignedAccess := by
  rw [State.checkAccess, if_pos h]

/-- An aligned access out of range. -/
theorem checkAccess_outOfRange (s : State) (ea : Word) (n : Width) (h : ea.toNat % widthBytes n = 0)
    (hr : s.dmemSize < ea.toNat + widthBytes n) : s.checkAccess ea n = some .memoryOutOfRange := by
  rw [State.checkAccess, if_neg (by simp [h]), if_pos hr]

/-- The only fault kinds of a data access. -/
theorem checkAccess_kinds (s : State) (ea : Word) (n : Width) (k : FaultKind) (h : s.checkAccess ea n = some k) :
    k = .misalignedAccess ∨ k = .memoryOutOfRange := by
  unfold State.checkAccess at h
  split at h
  · exact .inl (by simpa using h.symm)
  · split at h
    · exact .inr (by simpa using h.symm)
    · cases h

/-- What a load does: the raised kind of its check, or the extended value in rd with pc advanced. -/
theorem loadOp_eq (s : State) (i : Instr) (n : Width) (signed : Bool) (rd rs1 : RegIdx) (imm : BitVec 12) :
    s.loadOp i n signed rd rs1 imm =
      match s.checkAccess (s.effAddr rs1 imm) n with
      | some k => s.raise k i
      | none => .next (s.writeReg rd (extendLoaded signed (s.dmem.read (s.effAddr rs1 imm).toNat n))).advancePc := by
  unfold State.loadOp State.memRead
  cases s.checkAccess (s.effAddr rs1 imm) n <;> rfl

/-- The state after a store of width `n` has gone ahead. -/
def afterStore (s : State) (ea : Word) (n : Width) (v : Word) : State :=
  State.advancePc { s with dmem := s.dmem.write ea.toNat v n }

/-- What a store does: the raised kind of its check, or the bytes written with pc advanced. -/
theorem storeOp_eq (s : State) (i : Instr) (n : Width) (rs2 rs1 : RegIdx) (imm : BitVec 12) :
    s.storeOp i n rs2 rs1 imm =
      match s.checkAccess (s.effAddr rs1 imm) n with
      | some k => s.raise k i
      | none => .next (afterStore s (s.effAddr rs1 imm) n (s.readReg rs2)) := by
  unfold State.storeOp State.memWrite
  cases s.checkAccess (s.effAddr rs1 imm) n <;> rfl

@[simp] theorem afterStore_pc (s : State) (ea : Word) (n : Width) (v : Word) : (afterStore s ea n v).pc = s.pc + 4#32 := rfl
@[simp] theorem afterStore_regs (s : State) (ea : Word) (n : Width) (v : Word) : (afterStore s ea n v).regs = s.regs := rfl
@[simp] theorem afterStore_dmem (s : State) (ea : Word) (n : Width) (v : Word) :
    (afterStore s ea n v).dmem = s.dmem.write ea.toNat v n := rfl
@[simp] theorem afterStore_dmemSize (s : State) (ea : Word) (n : Width) (v : Word) :
    (afterStore s ea n v).dmemSize = s.dmemSize := rfl
@[simp] theorem afterStore_imem (s : State) (ea : Word) (n : Width) (v : Word) : (afterStore s ea n v).imem = s.imem := rfl
@[simp] theorem afterStore_haltFlag (s : State) (ea : Word) (n : Width) (v : Word) :
    (afterStore s ea n v).haltFlag = s.haltFlag := rfl
@[simp] theorem afterStore_out (s : State) (ea : Word) (n : Width) (v : Word) : (afterStore s ea n v).out = s.out := rfl
@[simp] theorem afterStore_customOpcode (s : State) (ea : Word) (n : Width) (v : Word) :
    (afterStore s ea n v).customOpcode = s.customOpcode := rfl
@[simp] theorem afterStore_readReg (s : State) (ea : Word) (n : Width) (v : Word) (r : RegIdx) :
    (afterStore s ea n v).readReg r = s.readReg r := rfl

/-! Control transfers (R250, R260). -/

/-- The alignment test of a target. -/
theorem aligned4_iff (t : Word) : aligned4 t = true ↔ t.toNat % 4 = 0 := by simp [aligned4]

/-- A transfer to a multiple of 4 goes ahead. -/
theorem jumpTo_aligned (s : State) (i : Instr) (t : Word) (after : State) (h : t.toNat % 4 = 0) :
    s.jumpTo i t after = .next (after.setPc t) := by
  rw [State.jumpTo, if_pos ((aligned4_iff t).mpr h)]

/-- A transfer to any other address faults. -/
theorem jumpTo_misaligned (s : State) (i : Instr) (t : Word) (after : State) (h : t.toNat % 4 ≠ 0) :
    s.jumpTo i t after = .fault (.faulted .misalignedTarget s.pc (encode s.customOpcode i)) := by
  have : ¬ aligned4 t = true := fun e => h ((aligned4_iff t).mp e)
  rw [State.jumpTo, if_neg this]
  rfl

/-- A transfer that answers a next state went to a multiple of 4. -/
theorem jumpTo_next {s : State} {i : Instr} {t : Word} {after u : State} (h : s.jumpTo i t after = .next u) :
    t.toNat % 4 = 0 ∧ u = after.setPc t := by
  by_cases ha : t.toNat % 4 = 0
  · rw [jumpTo_aligned s i t after ha] at h
    cases h
    exact ⟨ha, rfl⟩
  · rw [jumpTo_misaligned s i t after ha] at h
    cases h

/-- What a branch does, by its condition. -/
theorem branchOp_eq (s : State) (i : Instr) (cond : Word → Word → Bool) (rs1 rs2 : RegIdx) (t : BitVec 13) :
    s.branchOp i cond rs1 rs2 t =
      if cond (s.readReg rs1) (s.readReg rs2) then s.jumpTo i (branchTarget t) s else .next s.advancePc := rfl

/-! Fetch and the end of a run (R171, R172). -/

/-- A machine is halted when its flag is set or pc is past the end. -/
theorem isHalted_iff (s : State) : s.isHalted = true ↔ s.haltFlag = true ∨ 4 * s.imem.length ≤ s.pc.toNat := by
  rw [State.isHalted, State.imemLen, Bool.or_eq_true, decide_eq_true_iff]

/-- A machine that is not halted has a word to fetch. -/
theorem fetch_of_not_halted {s : State} (h : s.isHalted = false) : ∃ w, s.fetch = some w := by
  have hn : ¬ (s.haltFlag = true ∨ 4 * s.imem.length ≤ s.pc.toNat) := by
    rw [← isHalted_iff, h]; simp
  have hlt : s.pc.toNat / 4 < s.imem.length := by
    simp only [not_or] at hn; omega
  exact ⟨s.imem[s.pc.toNat / 4], by simp [State.fetch, hlt]⟩

/-- The step of a machine that is not halted, by the decoding of the fetched word. -/
theorem step_eq {s : State} {w : Word} (h : s.isHalted = false) (hf : s.fetch = some w) :
    step s =
      match decode s.customOpcode w with
      | .error k => .fault (.faulted (faultOfDecode k) s.pc w)
      | .ok i => exec i s := by
  unfold step
  rw [h, hf]
  rfl

end Sys2Proof.Machine
end

