-- ==== Sys2Proof/Laws/Exec.lean ====
section
/-! SUPPORT. Everything an instruction that completes can have done, said once (seven kinds of effect); every frame and
every invariant follows from it by a short case analysis. -/

namespace Sys2Proof.Machine

/-- A load that completes has written some value to rd and advanced pc. -/
theorem loadOp_next {s t : State} {i : Instr} {n : Width} {signed : Bool} {rd rs1 : RegIdx} {imm : BitVec 12}
    (h : s.loadOp i n signed rd rs1 imm = .next t) : ∃ v, t = (s.writeReg rd v).advancePc := by
  rw [loadOp_eq] at h
  split at h
  · cases h
  · cases h; exact ⟨_, rfl⟩

/-- A store that completes has passed its check, written its bytes and advanced pc. -/
theorem storeOp_next {s t : State} {i : Instr} {n : Width} {rs2 rs1 : RegIdx} {imm : BitVec 12}
    (h : s.storeOp i n rs2 rs1 imm = .next t) :
    s.checkAccess (s.effAddr rs1 imm) n = none ∧ t = afterStore s (s.effAddr rs1 imm) n (s.readReg rs2) := by
  rw [storeOp_eq] at h
  split at h
  · cases h
  · rename_i hc
    cases h
    exact ⟨hc, rfl⟩

/-- A branch that completes was taken to a multiple of 4, or was not taken. -/
theorem branchOp_next {s t : State} {i : Instr} {cond : Word → Word → Bool} {rs1 rs2 : RegIdx} {tgt : BitVec 13}
    (h : s.branchOp i cond rs1 rs2 tgt = .next t) :
    (cond (s.readReg rs1) (s.readReg rs2) = true ∧ (branchTarget tgt).toNat % 4 = 0 ∧ t = s.setPc (branchTarget tgt)) ∨
    (cond (s.readReg rs1) (s.readReg rs2) = false ∧ t = s.advancePc) := by
  rw [branchOp_eq] at h
  split at h
  · rename_i hc
    obtain ⟨ha, rfl⟩ := jumpTo_next h
    exact .inl ⟨hc, ha, rfl⟩
  · rename_i hc
    cases h
    exact .inr ⟨by simpa using hc, rfl⟩

/-- The kinds of effect an instruction `i` that completes in `s` can have; the index is the next state. -/
inductive ExecEffect (s : State) (i : Instr) : State → Prop where
  /-- A register is written (or discarded, for x0) and pc advances. -/
  | register (rd : RegIdx) (v : Word) (hd : destReg i = some rd) (hs : storeOf s i = none) (he : emitted s i = [])
      (hh : i ≠ .halt) (ht : transferTarget s i = none) : ExecEffect s i (s.writeReg rd v).advancePc
  /-- jal and jalr: a register is written and pc set to a multiple of 4. -/
  | link (rd : RegIdx) (v u : Word) (hd : destReg i = some rd) (hs : storeOf s i = none) (he : emitted s i = [])
      (hh : i ≠ .halt) (ht : transferTarget s i = some u) (ha : u.toNat % 4 = 0) :
      ExecEffect s i ((s.writeReg rd v).setPc u)
  /-- A branch not taken. -/
  | fallThrough (hd : destReg i = none) (hs : storeOf s i = none) (he : emitted s i = []) (hh : i ≠ .halt)
      (ht : transferTarget s i = none) : ExecEffect s i s.advancePc
  /-- A branch taken. -/
  | taken (u : Word) (hd : destReg i = none) (hs : storeOf s i = none) (he : emitted s i = []) (hh : i ≠ .halt)
      (ht : transferTarget s i = some u) (ha : u.toNat % 4 = 0) : ExecEffect s i (s.setPc u)
  /-- A store. -/
  | store (ea : Word) (n : Width) (v : Word) (hd : destReg i = none) (hs : storeOf s i = some (ea, n))
      (he : emitted s i = []) (hh : i ≠ .halt) (ht : transferTarget s i = none) (hc : s.checkAccess ea n = none) :
      ExecEffect s i (afterStore s ea n v)
  /-- halt. -/
  | halted (hi : i = .halt) : ExecEffect s i s.setHalted
  /-- print. -/
  | printed (rs : RegIdx) (hi : i = .print rs) : ExecEffect s i (s.emit (s.readReg rs)).advancePc

/-- Every instruction that completes has one of the seven effects. -/
theorem exec_effect {i : Instr} {s t : State} (h : exec i s = .next t) : ExecEffect s i t := by
  cases i
  case add | sub | sll | slt | sltu | xor | srl | sra | or | and | addi | slti | sltiu | xori | ori | andi | slli | srli
      | srai | lui =>
    cases h
    exact .register _ _ rfl rfl rfl (by simp) rfl
  case lb | lh | lw | lbu | lhu =>
    obtain ⟨v, rfl⟩ := loadOp_next h
    exact .register _ _ rfl rfl rfl (by simp) rfl
  case sb | sh | sw =>
    obtain ⟨hc, rfl⟩ := storeOp_next h
    exact .store _ _ _ rfl rfl rfl (by simp) rfl hc
  case jal | jalr =>
    obtain ⟨ha, rfl⟩ := jumpTo_next h
    exact .link _ _ _ rfl rfl rfl (by simp) rfl ha
  case halt => cases h; exact .halted rfl
  case print => cases h; exact .printed _ rfl
  all_goals
    obtain ⟨hc, ha, rfl⟩ | ⟨hc, rfl⟩ := branchOp_next h
    · refine .taken _ rfl rfl rfl (by simp) ?_ ha
      simp_all [transferTarget, branchTarget, condEq, condNe, condLt, condGe, condLtu, condGeu, ltSigned, ltUnsigned]
    · refine .fallThrough rfl rfl rfl (by simp) ?_
      simp_all [transferTarget, condEq, condNe, condLt, condGe, condLtu, condGeu, ltSigned, ltUnsigned]

/-- A step that answers a next state has executed the instruction fetched at pc. -/
theorem step_next {s t : State} (h : step s = .next t) :
    s.isHalted = false ∧ ∃ w i, s.fetch = some w ∧ decode s.customOpcode w = .ok i ∧ exec i s = .next t := by
  unfold step at h
  split at h
  · cases h
  · rename_i hh
    split at h
    · cases h
    · split at h
      · cases h
      · exact ⟨by simpa using hh, _, _, by assumption, by assumption, h⟩

/-- The placed word stands at its index. -/
theorem getElem?_placeWord (words : List Word) (n : Nat) (w : Word) : (placeWord words n w)[n]? = some w := by
  induction n generalizing words with
  | zero => cases words <;> rfl
  | succ n ih => cases words <;> exact ih _

/-- `withFetchWord` puts the word where the next step fetches it. -/
theorem fetch_withFetchWord (s : State) (nbits w : Nat) :
    (s.withFetchWord nbits w).fetch = some (BitVec.ofNat 32 (w % 2 ^ nbits)) := getElem?_placeWord _ _ _

/-- What a successful load gives (R46, R47). -/
theorem load_some {words : List Word} {size : Nat} {init : Nat → Byte} {custom : Opcode} {s : State}
    (h : State.load words size init custom = some s) :
    launchAllowed words size custom = true ∧
      s = { State.reset with
        imem := words
        dmem := Memory.ofBytes size init
        dmemSize := size
        customOpcode := custom } := by
  unfold State.load at h
  split at h
  · exact ⟨by assumption, (Option.some.inj h).symm⟩
  · cases h

end Sys2Proof.Machine
end

