-- ==== Sys2Proof/Laws/PerInstr.lean ====
section
/-! SUPPORT. A statement made per instruction: its encoded word carries its major opcode in bits 6:0 (30_encoding.md R101,
R116). -/

namespace Sys2Proof.Laws.OpcodeField

/-- The low seven bits of an instruction's word are its major opcode, whatever CUSTOM_OPCODE is (R101, R116). -/
def Statement (i : Instr) : Prop := ∀ custom : Opcode, opcodeOf (encode custom i) = i.majorOpcode custom

theorem add (rd rs1 rs2 : RegIdx) : Statement (.add rd rs1 rs2) := fun _ => opcodeOf_encodeR _ _ _ _ _ _
theorem sub (rd rs1 rs2 : RegIdx) : Statement (.sub rd rs1 rs2) := fun _ => opcodeOf_encodeR _ _ _ _ _ _
theorem sll (rd rs1 rs2 : RegIdx) : Statement (.sll rd rs1 rs2) := fun _ => opcodeOf_encodeR _ _ _ _ _ _
theorem slt (rd rs1 rs2 : RegIdx) : Statement (.slt rd rs1 rs2) := fun _ => opcodeOf_encodeR _ _ _ _ _ _
theorem sltu (rd rs1 rs2 : RegIdx) : Statement (.sltu rd rs1 rs2) := fun _ => opcodeOf_encodeR _ _ _ _ _ _
theorem xor (rd rs1 rs2 : RegIdx) : Statement (.xor rd rs1 rs2) := fun _ => opcodeOf_encodeR _ _ _ _ _ _
theorem srl (rd rs1 rs2 : RegIdx) : Statement (.srl rd rs1 rs2) := fun _ => opcodeOf_encodeR _ _ _ _ _ _
theorem sra (rd rs1 rs2 : RegIdx) : Statement (.sra rd rs1 rs2) := fun _ => opcodeOf_encodeR _ _ _ _ _ _
theorem or (rd rs1 rs2 : RegIdx) : Statement (.or rd rs1 rs2) := fun _ => opcodeOf_encodeR _ _ _ _ _ _
theorem and (rd rs1 rs2 : RegIdx) : Statement (.and rd rs1 rs2) := fun _ => opcodeOf_encodeR _ _ _ _ _ _
theorem addi (rd rs1 : RegIdx) (imm : BitVec 12) : Statement (.addi rd rs1 imm) := fun _ => opcodeOf_encodeI _ _ _ _ _
theorem slti (rd rs1 : RegIdx) (imm : BitVec 12) : Statement (.slti rd rs1 imm) := fun _ => opcodeOf_encodeI _ _ _ _ _
theorem sltiu (rd rs1 : RegIdx) (imm : BitVec 12) : Statement (.sltiu rd rs1 imm) := fun _ => opcodeOf_encodeI _ _ _ _ _
theorem xori (rd rs1 : RegIdx) (imm : BitVec 12) : Statement (.xori rd rs1 imm) := fun _ => opcodeOf_encodeI _ _ _ _ _
theorem ori (rd rs1 : RegIdx) (imm : BitVec 12) : Statement (.ori rd rs1 imm) := fun _ => opcodeOf_encodeI _ _ _ _ _
theorem andi (rd rs1 : RegIdx) (imm : BitVec 12) : Statement (.andi rd rs1 imm) := fun _ => opcodeOf_encodeI _ _ _ _ _
theorem slli (rd rs1 : RegIdx) (shamt : BitVec 5) : Statement (.slli rd rs1 shamt) := fun _ => opcodeOf_encodeR _ _ _ _ _ _
theorem srli (rd rs1 : RegIdx) (shamt : BitVec 5) : Statement (.srli rd rs1 shamt) := fun _ => opcodeOf_encodeR _ _ _ _ _ _
theorem srai (rd rs1 : RegIdx) (shamt : BitVec 5) : Statement (.srai rd rs1 shamt) := fun _ => opcodeOf_encodeR _ _ _ _ _ _
theorem lb (rd rs1 : RegIdx) (imm : BitVec 12) : Statement (.lb rd rs1 imm) := fun _ => opcodeOf_encodeI _ _ _ _ _
theorem lh (rd rs1 : RegIdx) (imm : BitVec 12) : Statement (.lh rd rs1 imm) := fun _ => opcodeOf_encodeI _ _ _ _ _
theorem lw (rd rs1 : RegIdx) (imm : BitVec 12) : Statement (.lw rd rs1 imm) := fun _ => opcodeOf_encodeI _ _ _ _ _
theorem lbu (rd rs1 : RegIdx) (imm : BitVec 12) : Statement (.lbu rd rs1 imm) := fun _ => opcodeOf_encodeI _ _ _ _ _
theorem lhu (rd rs1 : RegIdx) (imm : BitVec 12) : Statement (.lhu rd rs1 imm) := fun _ => opcodeOf_encodeI _ _ _ _ _
theorem sb (rs2 rs1 : RegIdx) (imm : BitVec 12) : Statement (.sb rs2 rs1 imm) := fun _ => opcodeOf_encodeS _ _ _ _
theorem sh (rs2 rs1 : RegIdx) (imm : BitVec 12) : Statement (.sh rs2 rs1 imm) := fun _ => opcodeOf_encodeS _ _ _ _
theorem sw (rs2 rs1 : RegIdx) (imm : BitVec 12) : Statement (.sw rs2 rs1 imm) := fun _ => opcodeOf_encodeS _ _ _ _
theorem beq (rs1 rs2 : RegIdx) (target : BitVec 13) : Statement (.beq rs1 rs2 target) := fun _ => opcodeOf_encodeB _ _ _ _
theorem bne (rs1 rs2 : RegIdx) (target : BitVec 13) : Statement (.bne rs1 rs2 target) := fun _ => opcodeOf_encodeB _ _ _ _
theorem blt (rs1 rs2 : RegIdx) (target : BitVec 13) : Statement (.blt rs1 rs2 target) := fun _ => opcodeOf_encodeB _ _ _ _
theorem bge (rs1 rs2 : RegIdx) (target : BitVec 13) : Statement (.bge rs1 rs2 target) := fun _ => opcodeOf_encodeB _ _ _ _
theorem bltu (rs1 rs2 : RegIdx) (target : BitVec 13) : Statement (.bltu rs1 rs2 target) := fun _ => opcodeOf_encodeB _ _ _ _
theorem bgeu (rs1 rs2 : RegIdx) (target : BitVec 13) : Statement (.bgeu rs1 rs2 target) := fun _ => opcodeOf_encodeB _ _ _ _
theorem jal (rd : RegIdx) (target : BitVec 21) : Statement (.jal rd target) := fun _ => opcodeOf_encodeJ _ _
theorem jalr (rd rs1 : RegIdx) (imm : BitVec 12) : Statement (.jalr rd rs1 imm) := fun _ => opcodeOf_encodeI _ _ _ _ _
theorem lui (rd : RegIdx) (imm : BitVec 20) : Statement (.lui rd imm) := fun _ => opcodeOf_encodeU _ _
theorem halt : Statement (.halt) := fun _ => opcodeOf_encodeCustom _ _ _
theorem print (rs : RegIdx) : Statement (.print rs) := fun _ => opcodeOf_encodeCustom _ _ _

end Sys2Proof.Laws.OpcodeField
end

