-- ==== Sys2Proof/Tests/Slice0.lean ====
section
/-! SUPPORT. Tests of the model: WellFormed's checks, decoding of words from the spec, single steps from the vectors of
spec/95_test_vectors.md, the encoder and the loader, and a witness for every statement that has hypotheses. Expected values
come from spec/ alone. -/

open Sys2Proof Sys2Proof.Machine Sys2Proof.Claims

namespace Sys2Proof.Tests

/-- A state as the vectors have it: DMEM_SIZE 256, the registers and memory bytes given, the word at pc. -/
def stateAt (pc w : Nat) (regs : List (RegIdx × Word)) (cells : List (Nat × Byte)) : State :=
  let s : State := { State.reset with pc := BitVec.ofNat 32 pc, dmemSize := 256, dmem := cells }
  (regs.foldl (fun t (p : RegIdx × Word) => t.writeReg p.1 p.2) s).withFetchWord 32 w

/-- The answer is a next state in which `p` holds. -/
def nextHas (a : Answer) (p : State → Bool) : Bool :=
  match a with
  | .next t => p t
  | .fault _ => false
  | .refused _ => false

/-- The answer is this fault. -/
def faultIs (a : Answer) (f : Fault) : Bool :=
  match a with
  | .next _ => false
  | .fault g => decide (g = f)
  | .refused _ => false

/-- The state that an answer gives, or `s`. -/
def nextOr (s : State) (a : Answer) : State :=
  match a with
  | .next t => t
  | .fault _ => s
  | .refused _ => s

/-! ## WellFormed: an ill-formed instruction for each check (R105, R106) -/

theorem test_wf_beq_odd : (Instr.beq 1#5 2#5 7#13).wf = false ∧ (Instr.beq 1#5 2#5 6#13).wf = true := by decide
theorem test_wf_bne_odd : (Instr.bne 1#5 2#5 7#13).wf = false ∧ (Instr.bne 1#5 2#5 6#13).wf = true := by decide
theorem test_wf_blt_odd : (Instr.blt 1#5 2#5 7#13).wf = false ∧ (Instr.blt 1#5 2#5 6#13).wf = true := by decide
theorem test_wf_bge_odd : (Instr.bge 1#5 2#5 7#13).wf = false ∧ (Instr.bge 1#5 2#5 6#13).wf = true := by decide
theorem test_wf_bltu_odd : (Instr.bltu 1#5 2#5 7#13).wf = false ∧ (Instr.bltu 1#5 2#5 6#13).wf = true := by decide
theorem test_wf_bgeu_odd : (Instr.bgeu 1#5 2#5 7#13).wf = false ∧ (Instr.bgeu 1#5 2#5 6#13).wf = true := by decide
theorem test_wf_jal_odd : (Instr.jal 1#5 7#21).wf = false ∧ (Instr.jal 1#5 6#21).wf = true := by decide

/-! ## Decoding, and encoding back: a word for every constructor, from R141 to R150 and the vectors -/

/-- Vector R1. -/
theorem test_decode_add :
    decode defaultCustomOpcode 0x002081B3#32 = .ok (.add 3#5 1#5 2#5) ∧
      encode defaultCustomOpcode (.add 3#5 1#5 2#5) = 0x002081B3#32 := by decide
/-- Vector R6. -/
theorem test_decode_sub :
    decode defaultCustomOpcode 0x402081B3#32 = .ok (.sub 3#5 1#5 2#5) ∧
      encode defaultCustomOpcode (.sub 3#5 1#5 2#5) = 0x402081B3#32 := by decide
/-- Vector R8. -/
theorem test_decode_sll :
    decode defaultCustomOpcode 0x002091B3#32 = .ok (.sll 3#5 1#5 2#5) ∧
      encode defaultCustomOpcode (.sll 3#5 1#5 2#5) = 0x002091B3#32 := by decide
/-- Vector R12. -/
theorem test_decode_slt :
    decode defaultCustomOpcode 0x0020A1B3#32 = .ok (.slt 3#5 1#5 2#5) ∧
      encode defaultCustomOpcode (.slt 3#5 1#5 2#5) = 0x0020A1B3#32 := by decide
/-- Vector R17. -/
theorem test_decode_sltu :
    decode defaultCustomOpcode 0x0020B1B3#32 = .ok (.sltu 3#5 1#5 2#5) ∧
      encode defaultCustomOpcode (.sltu 3#5 1#5 2#5) = 0x0020B1B3#32 := by decide
/-- Vector R18. -/
theorem test_decode_xor :
    decode defaultCustomOpcode 0x0010C1B3#32 = .ok (.xor 3#5 1#5 1#5) ∧
      encode defaultCustomOpcode (.xor 3#5 1#5 1#5) = 0x0010C1B3#32 := by decide
/-- Vector R19. -/
theorem test_decode_srl :
    decode defaultCustomOpcode 0x0020D1B3#32 = .ok (.srl 3#5 1#5 2#5) ∧
      encode defaultCustomOpcode (.srl 3#5 1#5 2#5) = 0x0020D1B3#32 := by decide
/-- Vector R21. -/
theorem test_decode_sra :
    decode defaultCustomOpcode 0x4020D1B3#32 = .ok (.sra 3#5 1#5 2#5) ∧
      encode defaultCustomOpcode (.sra 3#5 1#5 2#5) = 0x4020D1B3#32 := by decide
/-- Vector R24. -/
theorem test_decode_or :
    decode defaultCustomOpcode 0x0000E1B3#32 = .ok (.or 3#5 1#5 0#5) ∧
      encode defaultCustomOpcode (.or 3#5 1#5 0#5) = 0x0000E1B3#32 := by decide
/-- Vector R25. -/
theorem test_decode_and :
    decode defaultCustomOpcode 0x0000F1B3#32 = .ok (.and 3#5 1#5 0#5) ∧
      encode defaultCustomOpcode (.and 3#5 1#5 0#5) = 0x0000F1B3#32 := by decide
/-- Vector I2. -/
theorem test_decode_addi :
    decode defaultCustomOpcode 0x80000293#32 = .ok (.addi 5#5 0#5 0x800#12) ∧
      encode defaultCustomOpcode (.addi 5#5 0#5 0x800#12) = 0x80000293#32 := by decide
/-- Vector I8. -/
theorem test_decode_slti :
    decode defaultCustomOpcode 0x8000A293#32 = .ok (.slti 5#5 1#5 0x800#12) ∧
      encode defaultCustomOpcode (.slti 5#5 1#5 0x800#12) = 0x8000A293#32 := by decide
/-- Vector I11. -/
theorem test_decode_sltiu :
    decode defaultCustomOpcode 0xFFF0B293#32 = .ok (.sltiu 5#5 1#5 0xFFF#12) ∧
      encode defaultCustomOpcode (.sltiu 5#5 1#5 0xFFF#12) = 0xFFF0B293#32 := by decide
/-- Vector I13. -/
theorem test_decode_xori :
    decode defaultCustomOpcode 0xFFF0C293#32 = .ok (.xori 5#5 1#5 0xFFF#12) ∧
      encode defaultCustomOpcode (.xori 5#5 1#5 0xFFF#12) = 0xFFF0C293#32 := by decide
/-- Vector I14. -/
theorem test_decode_ori :
    decode defaultCustomOpcode 0x8000E293#32 = .ok (.ori 5#5 1#5 0x800#12) ∧
      encode defaultCustomOpcode (.ori 5#5 1#5 0x800#12) = 0x8000E293#32 := by decide
/-- Vector I16. -/
theorem test_decode_andi :
    decode defaultCustomOpcode 0x7FF0F293#32 = .ok (.andi 5#5 1#5 0x7FF#12) ∧
      encode defaultCustomOpcode (.andi 5#5 1#5 0x7FF#12) = 0x7FF0F293#32 := by decide
/-- Vector I18. -/
theorem test_decode_slli :
    decode defaultCustomOpcode 0x01F09293#32 = .ok (.slli 5#5 1#5 31#5) ∧
      encode defaultCustomOpcode (.slli 5#5 1#5 31#5) = 0x01F09293#32 := by decide
/-- Vector I19. -/
theorem test_decode_srli :
    decode defaultCustomOpcode 0x01F0D293#32 = .ok (.srli 5#5 1#5 31#5) ∧
      encode defaultCustomOpcode (.srli 5#5 1#5 31#5) = 0x01F0D293#32 := by decide
/-- Vector I20. -/
theorem test_decode_srai :
    decode defaultCustomOpcode 0x41F0D293#32 = .ok (.srai 5#5 1#5 31#5) ∧
      encode defaultCustomOpcode (.srai 5#5 1#5 31#5) = 0x41F0D293#32 := by decide
/-- Vector M2. -/
theorem test_decode_lb :
    decode defaultCustomOpcode 0xFFF08283#32 = .ok (.lb 5#5 1#5 0xFFF#12) ∧
      encode defaultCustomOpcode (.lb 5#5 1#5 0xFFF#12) = 0xFFF08283#32 := by decide
/-- Vector M5. -/
theorem test_decode_lh :
    decode defaultCustomOpcode 0x00009283#32 = .ok (.lh 5#5 1#5 0#12) ∧
      encode defaultCustomOpcode (.lh 5#5 1#5 0#12) = 0x00009283#32 := by decide
/-- Vector M14. -/
theorem test_decode_lw :
    decode defaultCustomOpcode 0x0080A283#32 = .ok (.lw 5#5 1#5 8#12) ∧
      encode defaultCustomOpcode (.lw 5#5 1#5 8#12) = 0x0080A283#32 := by decide
/-- Vector M3. -/
theorem test_decode_lbu :
    decode defaultCustomOpcode 0x0000C283#32 = .ok (.lbu 5#5 1#5 0#12) ∧
      encode defaultCustomOpcode (.lbu 5#5 1#5 0#12) = 0x0000C283#32 := by decide
/-- Vector M7. -/
theorem test_decode_lhu :
    decode defaultCustomOpcode 0x0000D283#32 = .ok (.lhu 5#5 1#5 0#12) ∧
      encode defaultCustomOpcode (.lhu 5#5 1#5 0#12) = 0x0000D283#32 := by decide
/-- Vector M17. -/
theorem test_decode_sb :
    decode defaultCustomOpcode 0x00208023#32 = .ok (.sb 2#5 1#5 0#12) ∧
      encode defaultCustomOpcode (.sb 2#5 1#5 0#12) = 0x00208023#32 := by decide
/-- Vector M20. -/
theorem test_decode_sh :
    decode defaultCustomOpcode 0xFE209F23#32 = .ok (.sh 2#5 1#5 0xFFE#12) ∧
      encode defaultCustomOpcode (.sh 2#5 1#5 0xFFE#12) = 0xFE209F23#32 := by decide
/-- Vector M23. -/
theorem test_decode_sw :
    decode defaultCustomOpcode 0xFE20AE23#32 = .ok (.sw 2#5 1#5 0xFFC#12) ∧
      encode defaultCustomOpcode (.sw 2#5 1#5 0xFFC#12) = 0xFE20AE23#32 := by decide
/-- Vector B11. -/
theorem test_decode_beq :
    decode defaultCustomOpcode 0x7E000EE3#32 = .ok (.beq 0#5 0#5 4092#13) ∧
      encode defaultCustomOpcode (.beq 0#5 0#5 4092#13) = 0x7E000EE3#32 := by decide
/-- Vector B13. -/
theorem test_decode_bne :
    decode defaultCustomOpcode 0x00001363#32 = .ok (.bne 0#5 0#5 6#13) ∧
      encode defaultCustomOpcode (.bne 0#5 0#5 6#13) = 0x00001363#32 := by decide
/-- Vector B3. -/
theorem test_decode_blt :
    decode defaultCustomOpcode 0x0420C063#32 = .ok (.blt 1#5 2#5 64#13) ∧
      encode defaultCustomOpcode (.blt 1#5 2#5 64#13) = 0x0420C063#32 := by decide
/-- Vector B6. -/
theorem test_decode_bge :
    decode defaultCustomOpcode 0x04105063#32 = .ok (.bge 0#5 1#5 64#13) ∧
      encode defaultCustomOpcode (.bge 0#5 1#5 64#13) = 0x04105063#32 := by decide
/-- Vector B7. -/
theorem test_decode_bltu :
    decode defaultCustomOpcode 0x0400E063#32 = .ok (.bltu 1#5 0#5 64#13) ∧
      encode defaultCustomOpcode (.bltu 1#5 0#5 64#13) = 0x0400E063#32 := by decide
/-- Vector B10. -/
theorem test_decode_bgeu :
    decode defaultCustomOpcode 0x0420F063#32 = .ok (.bgeu 1#5 2#5 64#13) ∧
      encode defaultCustomOpcode (.bgeu 1#5 2#5 64#13) = 0x0420F063#32 := by decide
/-- Vector J3. -/
theorem test_decode_jal :
    decode defaultCustomOpcode 0x7FDFF06F#32 = .ok (.jal 0#5 1048572#21) ∧
      encode defaultCustomOpcode (.jal 0#5 1048572#21) = 0x7FDFF06F#32 := by decide
/-- Vector J11. -/
theorem test_decode_jalr :
    decode defaultCustomOpcode 0x7FC000E7#32 = .ok (.jalr 1#5 0#5 2044#12) ∧
      encode defaultCustomOpcode (.jalr 1#5 0#5 2044#12) = 0x7FC000E7#32 := by decide
/-- Vector U2. -/
theorem test_decode_lui :
    decode defaultCustomOpcode 0x800002B7#32 = .ok (.lui 5#5 0x80000#20) ∧
      encode defaultCustomOpcode (.lui 5#5 0x80000#20) = 0x800002B7#32 := by decide
/-- Vector C1. -/
theorem test_decode_halt :
    decode defaultCustomOpcode 0x0000000B#32 = .ok (.halt) ∧
      encode defaultCustomOpcode (.halt) = 0x0000000B#32 := by decide
/-- Vector C3. -/
theorem test_decode_print :
    decode defaultCustomOpcode 0x00001F8B#32 = .ok (.print 31#5) ∧
      encode defaultCustomOpcode (.print 31#5) = 0x00001F8B#32 := by decide
/-- Vector X1. -/
theorem test_decode_zero_word :
    decode defaultCustomOpcode 0x00000000#32 = .error .unsupportedOpcode := by decide
/-- Vector X4. -/
theorem test_decode_mul :
    decode defaultCustomOpcode 0x022081B3#32 = .error .unsupportedOpcode := by decide
/-- Vector X5. -/
theorem test_decode_sll_funct7 :
    decode defaultCustomOpcode 0x402091B3#32 = .error .unsupportedOpcode := by decide
/-- Vector X8. -/
theorem test_decode_ecall :
    decode defaultCustomOpcode 0x00000073#32 = .error .unsupportedOpcode := by decide
/-- Vector X11. -/
theorem test_decode_load_funct3 :
    decode defaultCustomOpcode 0x0000B283#32 = .error .unsupportedOpcode := by decide
/-- Vector X13. -/
theorem test_decode_store_funct3 :
    decode defaultCustomOpcode 0x0020B023#32 = .error .unsupportedOpcode := by decide
/-- Vector X14. -/
theorem test_decode_branch_funct3 :
    decode defaultCustomOpcode 0x00002063#32 = .error .unsupportedOpcode := by decide
/-- Vector X15. -/
theorem test_decode_jalr_funct3 :
    decode defaultCustomOpcode 0x00001067#32 = .error .unsupportedOpcode := by decide
/-- Vector X16. -/
theorem test_decode_slli_bit25 :
    decode defaultCustomOpcode 0x02009293#32 = .error .unsupportedOpcode := by decide
/-- Vector X18. -/
theorem test_decode_srli_funct7 :
    decode defaultCustomOpcode 0x2040D293#32 = .error .unsupportedOpcode := by decide
/-- Vector X20. -/
theorem test_decode_custom_funct3 :
    decode defaultCustomOpcode 0x0000200B#32 = .error .unsupportedCustomOp := by decide
/-- Vector X22. -/
theorem test_decode_halt_rd :
    decode defaultCustomOpcode 0x0000008B#32 = .error .unsupportedCustomOp := by decide
/-- Vector X23. -/
theorem test_decode_halt_reserved :
    decode defaultCustomOpcode 0x0000800B#32 = .error .unsupportedCustomOp := by decide
/-- Vector X24. -/
theorem test_decode_print_reserved :
    decode defaultCustomOpcode 0x8000100B#32 = .error .unsupportedCustomOp := by decide
/-- Vector X25. -/
theorem test_decode_custom_opcode :
    decode 0b0101011#7 0x0000002B#32 = .ok .halt ∧ decode 0b0101011#7 0x0000000B#32 = .error .unsupportedOpcode := by decide
/-- The table's word of add's row, and a word no row has. -/
theorem test_table_word :
    decodeTableWord 32 0x002081B3 = some (.add 3#5 1#5 2#5) ∧ decodeTableWord 32 0 = none := by decide

/-! ## Single steps, from the vectors -/

/-- Vector R1. -/
theorem test_step_add_R1 :
    nextHas (step (stateAt 0 0x002081B3 [(1#5, 0x7FFFFFFF#32), (2#5, 0x00000001#32)] []))
      (fun t => t.pc == 4#32 && t.readReg 3#5 == 0x80000000#32) = true := by
  decide
/-- Vector R4. -/
theorem test_step_add_R4 :
    nextHas (step (stateAt 0 0x00208033 [(1#5, 0x00000005#32), (2#5, 0x00000007#32)] []))
      (fun t => t.pc == 4#32 && t.readReg 0#5 == 0#32) = true := by
  decide
/-- Vector R5. -/
theorem test_step_sub_R5 :
    nextHas (step (stateAt 0 0x401001B3 [(1#5, 0x00000001#32)] []))
      (fun t => t.pc == 4#32 && t.readReg 3#5 == 0xFFFFFFFF#32) = true := by
  decide
/-- Vector R6. -/
theorem test_step_sub_R6 :
    nextHas (step (stateAt 0 0x402081B3 [(1#5, 0x80000000#32), (2#5, 0x00000001#32)] []))
      (fun t => t.pc == 4#32 && t.readReg 3#5 == 0x7FFFFFFF#32) = true := by
  decide
/-- Vector R10. -/
theorem test_step_sll_R10 :
    nextHas (step (stateAt 0 0x002091B3 [(1#5, 0x12345678#32), (2#5, 0x00000021#32)] []))
      (fun t => t.pc == 4#32 && t.readReg 3#5 == 0x2468ACF0#32) = true := by
  decide
/-- Vector R11. -/
theorem test_step_sll_R11 :
    nextHas (step (stateAt 0 0x002091B3 [(1#5, 0x00000003#32), (2#5, 0x0000001F#32)] []))
      (fun t => t.pc == 4#32 && t.readReg 3#5 == 0x80000000#32) = true := by
  decide
/-- Vector R12. -/
theorem test_step_slt_R12 :
    nextHas (step (stateAt 0 0x0020A1B3 [(1#5, 0x80000000#32), (2#5, 0x00000000#32)] []))
      (fun t => t.pc == 4#32 && t.readReg 3#5 == 0x00000001#32) = true := by
  decide
/-- Vector R13. -/
theorem test_step_slt_R13 :
    nextHas (step (stateAt 0 0x0020A1B3 [(1#5, 0x7FFFFFFF#32), (2#5, 0x80000000#32)] []))
      (fun t => t.pc == 4#32 && t.readReg 3#5 == 0x00000000#32) = true := by
  decide
/-- Vector R15. -/
theorem test_step_sltu_R15 :
    nextHas (step (stateAt 0 0x002031B3 [(2#5, 0x00000009#32)] []))
      (fun t => t.pc == 4#32 && t.readReg 3#5 == 0x00000001#32) = true := by
  decide
/-- Vector R17. -/
theorem test_step_sltu_R17 :
    nextHas (step (stateAt 0 0x0020B1B3 [(1#5, 0x7FFFFFFF#32), (2#5, 0x80000000#32)] []))
      (fun t => t.pc == 4#32 && t.readReg 3#5 == 0x00000001#32) = true := by
  decide
/-- Vector R18. -/
theorem test_step_xor_R18 :
    nextHas (step (stateAt 0 0x0010C1B3 [(1#5, 0xDEADBEEF#32)] []))
      (fun t => t.pc == 4#32 && t.readReg 3#5 == 0x00000000#32) = true := by
  decide
/-- Vector R19. -/
theorem test_step_srl_R19 :
    nextHas (step (stateAt 0 0x0020D1B3 [(1#5, 0x80000000#32), (2#5, 0x0000001F#32)] []))
      (fun t => t.pc == 4#32 && t.readReg 3#5 == 0x00000001#32) = true := by
  decide
/-- Vector R20. -/
theorem test_step_srl_R20 :
    nextHas (step (stateAt 0 0x0020D1B3 [(1#5, 0x80000000#32), (2#5, 0xFFFFFFE0#32)] []))
      (fun t => t.pc == 4#32 && t.readReg 3#5 == 0x80000000#32) = true := by
  decide
/-- Vector R21. -/
theorem test_step_sra_R21 :
    nextHas (step (stateAt 0 0x4020D1B3 [(1#5, 0x80000000#32), (2#5, 0x0000001F#32)] []))
      (fun t => t.pc == 4#32 && t.readReg 3#5 == 0xFFFFFFFF#32) = true := by
  decide
/-- Vector R23. -/
theorem test_step_sra_R23 :
    nextHas (step (stateAt 0 0x4020D1B3 [(1#5, 0xFFFFFFF0#32), (2#5, 0x00000024#32)] []))
      (fun t => t.pc == 4#32 && t.readReg 3#5 == 0xFFFFFFFF#32) = true := by
  decide
/-- Vector R24. -/
theorem test_step_or_R24 :
    nextHas (step (stateAt 0 0x0000E1B3 [(1#5, 0x13579BDF#32)] []))
      (fun t => t.pc == 4#32 && t.readReg 3#5 == 0x13579BDF#32) = true := by
  decide
/-- Vector R25. -/
theorem test_step_and_R25 :
    nextHas (step (stateAt 0 0x0000F1B3 [(1#5, 0x13579BDF#32)] []))
      (fun t => t.pc == 4#32 && t.readReg 3#5 == 0x00000000#32) = true := by
  decide
/-- Vector I2. -/
theorem test_step_addi_I2 :
    nextHas (step (stateAt 0 0x80000293 [] []))
      (fun t => t.pc == 4#32 && t.readReg 5#5 == 0xFFFFF800#32) = true := by
  decide
/-- Vector I3. -/
theorem test_step_addi_I3 :
    nextHas (step (stateAt 0 0x00108293 [(1#5, 0x7FFFFFFF#32)] []))
      (fun t => t.pc == 4#32 && t.readReg 5#5 == 0x80000000#32) = true := by
  decide
/-- Vector I7. -/
theorem test_step_slti_I7 :
    nextHas (step (stateAt 0 0x0000A293 [(1#5, 0x80000000#32)] []))
      (fun t => t.pc == 4#32 && t.readReg 5#5 == 0x00000001#32) = true := by
  decide
/-- Vector I8. -/
theorem test_step_slti_I8 :
    nextHas (step (stateAt 0 0x8000A293 [(1#5, 0xFFFFF800#32)] []))
      (fun t => t.pc == 4#32 && t.readReg 5#5 == 0x00000000#32) = true := by
  decide
/-- Vector I11. -/
theorem test_step_sltiu_I11 :
    nextHas (step (stateAt 0 0xFFF0B293 [(1#5, 0xFFFFFFFF#32)] []))
      (fun t => t.pc == 4#32 && t.readReg 5#5 == 0x00000000#32) = true := by
  decide
/-- Vector I12. -/
theorem test_step_sltiu_I12 :
    nextHas (step (stateAt 0 0x8000B293 [(1#5, 0xFFFFF7FF#32)] []))
      (fun t => t.pc == 4#32 && t.readReg 5#5 == 0x00000001#32) = true := by
  decide
/-- Vector I13. -/
theorem test_step_xori_I13 :
    nextHas (step (stateAt 0 0xFFF0C293 [(1#5, 0x12345678#32)] []))
      (fun t => t.pc == 4#32 && t.readReg 5#5 == 0xEDCBA987#32) = true := by
  decide
/-- Vector I14. -/
theorem test_step_ori_I14 :
    nextHas (step (stateAt 0 0x8000E293 [(1#5, 0x00000001#32)] []))
      (fun t => t.pc == 4#32 && t.readReg 5#5 == 0xFFFFF801#32) = true := by
  decide
/-- Vector I15. -/
theorem test_step_andi_I15 :
    nextHas (step (stateAt 0 0xFFF0F293 [(1#5, 0xCAFEBABE#32)] []))
      (fun t => t.pc == 4#32 && t.readReg 5#5 == 0xCAFEBABE#32) = true := by
  decide
/-- Vector I16. -/
theorem test_step_andi_I16 :
    nextHas (step (stateAt 0 0x7FF0F293 [(1#5, 0xCAFEBABE#32)] []))
      (fun t => t.pc == 4#32 && t.readReg 5#5 == 0x000002BE#32) = true := by
  decide
/-- Vector I17. -/
theorem test_step_slli_I17 :
    nextHas (step (stateAt 0 0x00009293 [(1#5, 0x89ABCDEF#32)] []))
      (fun t => t.pc == 4#32 && t.readReg 5#5 == 0x89ABCDEF#32) = true := by
  decide
/-- Vector I18. -/
theorem test_step_slli_I18 :
    nextHas (step (stateAt 0 0x01F09293 [(1#5, 0x00000003#32)] []))
      (fun t => t.pc == 4#32 && t.readReg 5#5 == 0x80000000#32) = true := by
  decide
/-- Vector I19. -/
theorem test_step_srli_I19 :
    nextHas (step (stateAt 0 0x01F0D293 [(1#5, 0x80000000#32)] []))
      (fun t => t.pc == 4#32 && t.readReg 5#5 == 0x00000001#32) = true := by
  decide
/-- Vector I20. -/
theorem test_step_srai_I20 :
    nextHas (step (stateAt 0 0x41F0D293 [(1#5, 0x80000000#32)] []))
      (fun t => t.pc == 4#32 && t.readReg 5#5 == 0xFFFFFFFF#32) = true := by
  decide
/-- Vector I22. -/
theorem test_step_srai_I22 :
    nextHas (step (stateAt 0 0x4000D293 [(1#5, 0x80000000#32)] []))
      (fun t => t.pc == 4#32 && t.readReg 5#5 == 0x80000000#32) = true := by
  decide
/-- Vector M2. -/
theorem test_step_lb_M2 :
    nextHas (step (stateAt 0 0xFFF08283 [(1#5, 0x00000009#32)] [(8, 0xFF#8)]))
      (fun t => t.pc == 4#32 && t.readReg 5#5 == 0xFFFFFFFF#32) = true := by
  decide
/-- Vector M4. -/
theorem test_step_lb_M4 :
    faultIs (step (stateAt 0 0x00008283 [(1#5, 0x00000100#32)] []))
      (.faulted .memoryOutOfRange 0#32 0x00008283#32) = true := by
  decide
/-- Vector M5. -/
theorem test_step_lh_M5 :
    faultIs (step (stateAt 0 0x00009283 [(1#5, 0x00000001#32)] []))
      (.faulted .misalignedAccess 0#32 0x00009283#32) = true := by
  decide
/-- Vector M8. -/
theorem test_step_lh_M8 :
    nextHas (step (stateAt 0 0x00009283 [(1#5, 0x000000FE#32)] [(254, 0x01#8), (255, 0xFF#8)]))
      (fun t => t.pc == 4#32 && t.readReg 5#5 == 0xFFFFFF01#32) = true := by
  decide
/-- Vector M10. -/
theorem test_step_lw_M10 :
    nextHas (step (stateAt 0 0x0000A283 [(1#5, 0x000000FC#32)] [(252, 0x01#8), (253, 0x02#8), (254, 0x03#8), (255, 0x04#8)]))
      (fun t => t.pc == 4#32 && t.readReg 5#5 == 0x04030201#32) = true := by
  decide
/-- Vector M12. -/
theorem test_step_lw_M12 :
    faultIs (step (stateAt 0 0x0000A283 [(1#5, 0x00000101#32)] []))
      (.faulted .misalignedAccess 0#32 0x0000A283#32) = true := by
  decide
/-- Vector M3. -/
theorem test_step_lbu_M3 :
    nextHas (step (stateAt 0 0x0000C283 [(1#5, 0x000000FF#32)] [(255, 0xFF#8)]))
      (fun t => t.pc == 4#32 && t.readReg 5#5 == 0x000000FF#32) = true := by
  decide
/-- Vector M7. -/
theorem test_step_lhu_M7 :
    nextHas (step (stateAt 0 0x0000D283 [(1#5, 0x000000FE#32)] [(254, 0x01#8), (255, 0xFF#8)]))
      (fun t => t.pc == 4#32 && t.readReg 5#5 == 0x0000FF01#32) = true := by
  decide
/-- Vector M17. -/
theorem test_step_sb_M17 :
    nextHas (step (stateAt 0 0x00208023 [(1#5, 0x000000FF#32), (2#5, 0xFFFFFFAB#32)] []))
      (fun t => t.pc == 4#32 && t.dmem.readByte 255 == 0xAB#8) = true := by
  decide
/-- Vector M18. -/
theorem test_step_sb_M18 :
    faultIs (step (stateAt 0 0x00208023 [(1#5, 0x00000100#32), (2#5, 0x00000001#32)] []))
      (.faulted .memoryOutOfRange 0#32 0x00208023#32) = true := by
  decide
/-- Vector M19. -/
theorem test_step_sh_M19 :
    faultIs (step (stateAt 0 0x00209023 [(1#5, 0x000000FF#32), (2#5, 0x00000001#32)] []))
      (.faulted .misalignedAccess 0#32 0x00209023#32) = true := by
  decide
/-- Vector M20. -/
theorem test_step_sh_M20 :
    nextHas (step (stateAt 0 0xFE209F23 [(1#5, 0x00000100#32), (2#5, 0xABCD1234#32)] []))
      (fun t => t.pc == 4#32 && t.dmem.readByte 254 == 0x34#8 && t.dmem.readByte 255 == 0x12#8) = true := by
  decide
/-- Vector M23. -/
theorem test_step_sw_M23 :
    nextHas (step (stateAt 0 0xFE20AE23 [(1#5, 0x00000008#32), (2#5, 0x01020304#32)] []))
      (fun t => t.pc == 4#32 && t.dmem.readByte 4 == 0x04#8 && t.dmem.readByte 5 == 0x03#8 && t.dmem.readByte 6 == 0x02#8 && t.dmem.readByte 7 == 0x01#8) = true := by
  decide
/-- Vector M22. -/
theorem test_step_sw_M22 :
    faultIs (step (stateAt 0 0x0020A023 [(1#5, 0x00000100#32), (2#5, 0x00000001#32)] []))
      (.faulted .memoryOutOfRange 0#32 0x0020A023#32) = true := by
  decide
/-- Vector B12. -/
theorem test_step_beq_B12 :
    faultIs (step (stateAt 0 0x00000363 [] []))
      (.faulted .misalignedTarget 0#32 0x00000363#32) = true := by
  decide
/-- Vector B14. -/
theorem test_step_beq_B14 :
    nextHas (step (stateAt 0 0x80000063 [] []))
      (fun t => t.pc == 0xFFFFF000#32) = true := by
  decide
/-- Vector B2. -/
theorem test_step_bne_B2 :
    nextHas (step (stateAt 8 0x00109063 [(1#5, 0x00000003#32)] []))
      (fun t => t.pc == 12#32) = true := by
  decide
/-- Vector B13. -/
theorem test_step_bne_B13 :
    nextHas (step (stateAt 0 0x00001363 [] []))
      (fun t => t.pc == 4#32) = true := by
  decide
/-- Vector B3. -/
theorem test_step_blt_B3 :
    nextHas (step (stateAt 4 0x0420C063 [(1#5, 0x80000000#32), (2#5, 0x7FFFFFFF#32)] []))
      (fun t => t.pc == 64#32) = true := by
  decide
/-- Vector B4. -/
theorem test_step_blt_B4 :
    nextHas (step (stateAt 4 0x0410C063 [(1#5, 0x00000005#32)] []))
      (fun t => t.pc == 8#32) = true := by
  decide
/-- Vector B5. -/
theorem test_step_bge_B5 :
    nextHas (step (stateAt 4 0x0420D063 [(1#5, 0x00000005#32), (2#5, 0x00000005#32)] []))
      (fun t => t.pc == 64#32) = true := by
  decide
/-- Vector B6. -/
theorem test_step_bge_B6 :
    nextHas (step (stateAt 4 0x04105063 [(1#5, 0xFFFFFFFF#32)] []))
      (fun t => t.pc == 64#32) = true := by
  decide
/-- Vector B7. -/
theorem test_step_bltu_B7 :
    nextHas (step (stateAt 4 0x0400E063 [(1#5, 0xFFFFFFFF#32)] []))
      (fun t => t.pc == 8#32) = true := by
  decide
/-- Vector B8. -/
theorem test_step_bltu_B8 :
    nextHas (step (stateAt 4 0x0420E063 [(1#5, 0x7FFFFFFF#32), (2#5, 0x80000000#32)] []))
      (fun t => t.pc == 64#32) = true := by
  decide
/-- Vector B9. -/
theorem test_step_bgeu_B9 :
    nextHas (step (stateAt 4 0x0400F063 [(1#5, 0x00000000#32)] []))
      (fun t => t.pc == 64#32) = true := by
  decide
/-- Vector B10. -/
theorem test_step_bgeu_B10 :
    nextHas (step (stateAt 4 0x0420F063 [(1#5, 0x00000001#32), (2#5, 0xFFFFFFFF#32)] []))
      (fun t => t.pc == 8#32) = true := by
  decide
/-- Vector J2. -/
theorem test_step_jal_J2 :
    nextHas (step (stateAt 8 0x040000EF [] []))
      (fun t => t.pc == 64#32 && t.readReg 1#5 == 0x0000000C#32) = true := by
  decide
/-- Vector J12. -/
theorem test_step_jal_J12 :
    faultIs (step (stateAt 0 0x0020006F [] []))
      (.faulted .misalignedTarget 0#32 0x0020006F#32) = true := by
  decide
/-- Vector J6. -/
theorem test_step_jalr_J6 :
    nextHas (step (stateAt 4 0x000080E7 [(1#5, 0x00000010#32)] []))
      (fun t => t.pc == 16#32 && t.readReg 1#5 == 0x00000008#32) = true := by
  decide
/-- Vector J9. -/
theorem test_step_jalr_J9 :
    faultIs (step (stateAt 0 0x7FF000E7 [] []))
      (.faulted .misalignedTarget 0#32 0x7FF000E7#32) = true := by
  decide
/-- Vector U1. -/
theorem test_step_lui_U1 :
    nextHas (step (stateAt 0 0xFFFFF2B7 [] []))
      (fun t => t.pc == 4#32 && t.readReg 5#5 == 0xFFFFF000#32) = true := by
  decide
/-- Vector U4. -/
theorem test_step_lui_U4 :
    nextHas (step (stateAt 0 0x12345037 [] []))
      (fun t => t.pc == 4#32 && t.readReg 0#5 == 0#32) = true := by
  decide
/-- Vector C1. -/
theorem test_step_halt_C1 :
    nextHas (step (stateAt 12 0x0000000B [] []))
      (fun t => t.pc == 12#32 && t.haltFlag) = true := by
  decide
/-- Vector C3. -/
theorem test_step_print_C3 :
    nextHas (step (stateAt 0 0x00001F8B [(31#5, 0xFFFFFFFF#32)] []))
      (fun t => t.pc == 4#32 && t.out == [0xFFFFFFFF#32]) = true := by
  decide
/-- E8: pc at the end of instruction memory is halted, without a fault. -/
theorem test_step_past_the_end :
    faultIs (step { State.reset with imem := [0x00000013#32], pc := 4#32 }) .halted = true := by decide
/-- X20, as a step. -/
theorem test_step_custom_fault :
    faultIs (step (stateAt 0 0x0000200B [] [])) (.faulted .unsupportedCustomOp 0#32 0x0000200B#32) = true := by decide
/-- The word placed at reset's pc is the one the next step runs (U3's word). -/
theorem test_withFetchWord :
    nextHas (step (State.reset.withFetchWord 32 0x12345037)) (fun t => t.pc == 4#32) = true ∧
    State.reset.withFetchWord 32 0x12345037 = { State.reset with imem := [0x12345037#32] } := by decide

/-! ## The encoder and the loader, from the vectors A1 to A41 and R341 -/

/-- Vector A1. -/
theorem test_assemble_A1 :
    assemble defaultCustomOpcode "addi x5 x0 -1".toList = .ok [0xFFF00293#32] := by decide
/-- Vector A2. -/
theorem test_assemble_A2 :
    assemble defaultCustomOpcode "addi x5, x0, -1".toList = .ok [0xFFF00293#32] := by decide
/-- Vector A3. -/
theorem test_assemble_A3 :
    assemble defaultCustomOpcode "addi x5,x0,-1".toList = .error ⟨1, .malformedLine⟩ := by decide
/-- Vector A4. -/
theorem test_assemble_A4 :
    assemble defaultCustomOpcode "add x1, x2, x3,".toList = .error ⟨1, .malformedLine⟩ := by decide
/-- Vector A5. -/
theorem test_assemble_A5 :
    assemble defaultCustomOpcode "add x1, x2".toList = .error ⟨1, .malformedLine⟩ := by decide
/-- Vector A7. -/
theorem test_assemble_A7 :
    assemble defaultCustomOpcode "ADD x1, x2, x3".toList = .error ⟨1, .unknownOpcode⟩ := by decide
/-- Vector A8. -/
theorem test_assemble_A8 :
    assemble defaultCustomOpcode "nop".toList = .error ⟨1, .unknownOpcode⟩ := by decide
/-- Vector A11. -/
theorem test_assemble_A11 :
    assemble defaultCustomOpcode "add x1, x2, x05".toList = .error ⟨1, .unknownRegister⟩ := by decide
/-- Vector A13. -/
theorem test_assemble_A13 :
    assemble defaultCustomOpcode "add fp, s0, zero".toList = .ok [0x00040433#32] := by decide
/-- Vector A14. -/
theorem test_assemble_A14 :
    assemble defaultCustomOpcode "addi x1, x0, 2048".toList = .error ⟨1, .malformedLine⟩ := by decide
/-- Vector A16. -/
theorem test_assemble_A16 :
    assemble defaultCustomOpcode "addi x1, x0, 0x10".toList = .error ⟨1, .malformedLine⟩ := by decide
/-- Vector A18. -/
theorem test_assemble_A18 :
    assemble defaultCustomOpcode "slli x1, x1, 32".toList = .error ⟨1, .malformedLine⟩ := by decide
/-- Vector A20. -/
theorem test_assemble_A20 :
    assemble defaultCustomOpcode "lw x5, 4(x1)".toList = .error ⟨1, .malformedLine⟩ := by decide
/-- Vector A21. -/
theorem test_assemble_A21 :
    assemble defaultCustomOpcode "lui x1, 1048576".toList = .error ⟨1, .malformedLine⟩ := by decide
/-- Vector A23. -/
theorem test_assemble_A23 :
    assemble defaultCustomOpcode "lui x1, -524288".toList = .ok [0x800000B7#32] := by decide
/-- Vector A24. -/
theorem test_assemble_A24 :
    assemble defaultCustomOpcode "beq x0, x0, nowhere".toList = .error ⟨1, .undefinedSymbol⟩ := by decide
/-- Vector A26. -/
theorem test_assemble_A26 :
    assemble defaultCustomOpcode "beq x0, x0, 3".toList = .error ⟨1, .malformedLine⟩ := by decide
/-- Vector A27. -/
theorem test_assemble_A27 :
    assemble defaultCustomOpcode "beq x0, x0, -4096".toList = .ok [0x80000063#32] := by decide
/-- Vector A30. -/
theorem test_assemble_A30 :
    assemble defaultCustomOpcode "jalr x0, x0, 3".toList = .ok [0x00300067#32] := by decide
/-- Vector A32. -/
theorem test_assemble_A32 :
    assemble defaultCustomOpcode "print 5".toList = .error ⟨1, .unknownRegister⟩ := by decide
/-- Vector A34. -/
theorem test_assemble_A34 :
    assemble defaultCustomOpcode "addi x1, x99, 5000".toList = .error ⟨1, .unknownRegister⟩ := by decide
/-- Vector A36. -/
theorem test_assemble_A36 :
    assemble defaultCustomOpcode "loop: addi x1, x1, 1".toList = .error ⟨1, .unknownOpcode⟩ := by decide
/-- Vector A37. -/
theorem test_assemble_A37 :
    assemble defaultCustomOpcode "1abc:".toList = .error ⟨1, .malformedLine⟩ := by decide
/-- Vector A38. -/
theorem test_assemble_A38 :
    assemble defaultCustomOpcode "a:\na:\nhalt".toList = .error ⟨2, .malformedLine⟩ := by decide
/-- Vector A39. -/
theorem test_assemble_A39 :
    assemble defaultCustomOpcode "beq x0, x0, nowhere\na:\na:".toList = .error ⟨3, .malformedLine⟩ := by decide
/-- Vector A41. -/
theorem test_assemble_A41 :
    assemble defaultCustomOpcode "  beq x0, x0, L\nL:\n  halt".toList = .ok [0x00000263#32, 0x0000000B#32] := by decide
/-- A40's symbols. -/
theorem test_symbols_A40 :
    passOne ((splitLines "start:\n\nend:\nhalt\nfin:".toList).map classifyLine) =
      .ok [("fin".toList, 4#32), ("end".toList, 0#32), ("start".toList, 0#32)] := by decide
/-- R16, R133: the address after the last one of 32 bits is 0. -/
theorem test_symbols_wrap :
    passOneFrom 9 0xFFFFFFFC#32 [] [.instruction ["halt".toList], .label "L".toList] = .ok [("L".toList, 0#32)] := by
  decide
/-- R341: short lines, surrounding blanks and a final line feed are accepted; a blank line inside, another digit and 33
digits are not. -/
theorem test_loader_lines :
    parseProgram " 10011\n1011 \n".toList = some [0x00000013#32, 0x0000000B#32] ∧ parseProgram "".toList = some [] ∧
    parseProgram "1\n\n1".toList = none ∧ parseProgram "12".toList = none ∧
    parseProgram "000000000000000000000000000000001".toList = none := by decide
/-- R152: 32 characters, most significant bit first. -/
theorem test_output_line :
    outputText [0x8000000B#32] = "10000000000000000000000000001011\n".toList := by decide
/-! ## Witnesses: for every statement with hypotheses, inputs that meet all of them together -/

/-- A small loaded machine, used by the witnesses: one instruction, four bytes of data memory. -/
def loaded (w : Word) : State :=
  { State.reset with imem := [w], dmemSize := 4, dmem := [(3, 7#8)] }

/-- `loaded w` is what `load` gives for a DMEM_INIT of 7 at address 3 and 0 elsewhere. -/
theorem loaded_eq (w : Word) :
    State.load [w] 4 (fun a => if a = 3 then 7#8 else 0#8) defaultCustomOpcode = some (loaded w) := rfl

/-- The smallest and the largest DMEM_SIZE, and a CUSTOM_OPCODE other than the default, are legal. -/
theorem witness_LoadGivesResetValues :
    launchAllowed [] 0 defaultCustomOpcode = true ∧ launchAllowed [0x13#32] 4294967296 0b0101011#7 = true := by decide

theorem witness_LoadedStateMeetsInv :
    State.load [0x13#32] 4 (fun a => if a = 3 then 7#8 else 0#8) defaultCustomOpcode = some (loaded 0x13#32) := rfl

theorem loaded_inv : (loaded 0x00108093#32).Inv := by
  refine ⟨?_, ?_, ?_, ?_, ?_⟩ <;> decide

theorem witness_StepKeepsInv :
    (loaded 0x00108093#32).Inv ∧
      ∃ t, step (loaded 0x00108093#32) = .next t ∧ t.readReg 1#5 = 1#32 := ⟨loaded_inv, _, rfl, rfl⟩

theorem witness_ReachablePcAligned : Reachable (loaded 0x13#32) := .load _ _ _ _ _ (loaded_eq _)

theorem witness_StepRunsDecodedInstruction :
    let s := stateAt 8 0x002081B3 [] []
    s.haltFlag = false ∧ s.pc.toNat < 4 * s.imem.length ∧ s.imem[s.pc.toNat / 4]? = some 0x002081B3#32 ∧
      decode s.customOpcode 0x002081B3#32 = .ok (.add 3#5 1#5 2#5) := by decide

/-- Halted by the flag, halted at the very end of instruction memory, and an empty loaded machine. -/
theorem witness_StepHaltsExactlyWhenHalted :
    (stateAt 0 0x13 [] []).setHalted.isHalted = true ∧
    ((stateAt 0 0x13 [] []).setPc 4#32).isHalted = true ∧ (stateAt 0 0x13 [] []).isHalted = false ∧
    State.load [] 0 (fun _ => 0#8) defaultCustomOpcode = some { State.reset with dmemSize := 0 } := by decide

/-- A word of each kind that does not decode. -/
theorem witness_StepFaultsOnUndecodableWord :
    let s := stateAt 4 0x00000000 [] []
    let r := stateAt 4 0x0000200B [] []
    (s.isHalted = false ∧ s.imem[s.pc.toNat / 4]? = some 0#32 ∧ decode s.customOpcode 0#32 = .error .unsupportedOpcode) ∧
    (r.isHalted = false ∧ r.imem[r.pc.toNat / 4]? = some 0x0000200B#32 ∧
      decode r.customOpcode 0x0000200B#32 = .error .unsupportedCustomOp) := by decide

theorem witness_FaultRecordsPcAndWord :
    step (stateAt 0 0x0000A283 [(1#5, 2#32)] []) = .fault (.faulted .misalignedAccess 0#32 0x0000A283#32) := rfl

/-- One instruction for each of the three kinds. -/
theorem witness_ExecFaultKinds :
    (∃ f, exec (.beq 0#5 0#5 6#13) (stateAt 0 0x13 [] []) = .fault f) ∧
    (∃ f, exec (.lw 5#5 1#5 0#12) (stateAt 0 0x13 [(1#5, 2#32)] []) = .fault f) ∧
    (∃ f, exec (.lb 5#5 1#5 0#12) (stateAt 0 0x13 [(1#5, 256#32)] []) = .fault f) := ⟨⟨_, rfl⟩, ⟨_, rfl⟩, ⟨_, rfl⟩⟩

/-- Both sides at the last byte of data memory, at the first one past it, and for a misaligned target. -/
theorem witness_ExecCompletesExactly :
    (accessOf (stateAt 0 0x13 [(1#5, 255#32)] []) (.lb 5#5 1#5 0#12) = some (255#32, .byte)) ∧
    (∃ t, exec (.lb 5#5 1#5 0#12) (stateAt 0 0x13 [(1#5, 255#32)] []) = .next t) ∧
    ¬ (∃ t, exec (.lb 5#5 1#5 0#12) (stateAt 0 0x13 [(1#5, 256#32)] []) = .next t) ∧
    (transferTarget (stateAt 0 0x13 [] []) (.jal 0#5 6#21) = some 6#32) ∧
    ¬ (∃ t, exec (.jal 0#5 6#21) (stateAt 0 0x13 [] []) = .next t) := by
  refine ⟨by decide, ⟨_, rfl⟩, ?_, by decide, ?_⟩ <;> (rintro ⟨t, h⟩; cases h)

/-- A step of each outcome, and a run that faults in its second step and one that halts. -/
theorem witness_RunEndStates :
    (∃ t, step (loaded 0x13#32) = .next t) ∧ step (loaded 0x0000000B#32).setHalted = .fault .halted ∧
    step (loaded 0#32) = .fault (.faulted .unsupportedOpcode 0#32 0#32) ∧
    (run 2 { State.reset with imem := [0x13#32, 0#32] }).outcome = .faulted .unsupportedOpcode 4#32 0#32 ∧
    (run 2 (loaded 0x0000000B#32)).outcome = .halted :=
  ⟨⟨_, rfl⟩, rfl, rfl, by decide, by decide⟩

theorem witness_EndedRunIsFinal : (run 2 (loaded 0x13#32)).outcome ≠ .unfinished := by decide

theorem witness_HaltProgramHaltsInOneStep :
    State.load [0x0000000B#32] 4 (fun a => if a = 3 then 7#8 else 0#8) 0b0001011#7 = some (loaded 0x0000000B#32) := rfl

/-- x1 and x31 at the ends of the register numbers, and the file's index 0. -/
theorem witness_RegisterFileLaws : (31#5 : RegIdx) ≠ 0#5 ∧ (0#5 : RegIdx) ≠ 31#5 ∧ State.reset.regs[0] = 0#32 := by decide

theorem witness_OnlyDestinationRegisterChanges :
    (∃ t, exec (.lui 5#5 1#20) State.reset = .next t) ∧ destReg (.lui 5#5 1#20) ≠ some 6#5 ∧
    (∃ t, exec (.print 5#5) State.reset = .next t) ∧ destReg (.print 5#5) ≠ some 5#5 :=
  ⟨⟨_, rfl⟩, by decide, ⟨_, rfl⟩, by decide⟩

theorem witness_WriteToX0Discarded :
    destReg (.jal 0#5 64#21) = some 0#5 ∧ ∃ t, exec (.jal 0#5 64#21) State.reset = .next t := ⟨rfl, _, rfl⟩

/-- One instruction of each case: halt, a transfer, a branch not taken and a plain instruction. -/
theorem witness_NextPcRule :
    (∃ t, exec .halt State.reset = .next t) ∧ (∃ t, exec (.jal 1#5 64#21) State.reset = .next t) ∧
    (∃ t, exec (.bne 0#5 0#5 64#13) State.reset = .next t) ∧ (∃ t, exec (.add 1#5 2#5 3#5) State.reset = .next t) :=
  ⟨⟨_, rfl⟩, ⟨_, rfl⟩, ⟨_, rfl⟩, ⟨_, rfl⟩⟩

/-- The full instruction memory, with `pc` given. -/
def fullMemory (pc : Word) : State := { State.reset with pc := pc, imem := List.replicate 1073741824 0x13#32 }

theorem fullMemory_length (pc : Word) : (fullMemory pc).imem.length = 1073741824 := List.length_replicate

/-- The full memory at an aligned pc meets the invariant. -/
theorem fullMemory_inv (pc : Word) (h : pc.toNat % 4 = 0) : (fullMemory pc).Inv :=
  ⟨rfl, h, rfl, rfl, by
    rw [launchAllowed, fullMemory_length]
    show (decide (1073741824 ≤ Config.maxImemWords) && decide (resetDmemSize ≤ Config.maxDmemSize) &&
      validCustomOpcode resetCustomOpcode) = true
    decide⟩

/-- Every pc is in the full memory. -/
theorem fullMemory_running (pc : Word) : (fullMemory pc).isHalted = false := by
  rw [Bool.eq_false_iff, ne_eq, isHalted_iff, fullMemory_length]
  rintro (h | h)
  · cases h
  · exact absurd pc.isLt (Nat.not_lt.mpr h)

/-- A small machine; the full instruction memory with pc at its last word but one; and at its last word, where an
instruction that transfers no control, jal and jalr complete. -/
theorem witness_PcWrapsOnlyAtTheTop :
    ((loaded 0x00108093#32).Inv ∧ (loaded 0x00108093#32).isHalted = false ∧
      (loaded 0x00108093#32).imem.length < 1073741824) ∧
    ((fullMemory 0xFFFFFFF8#32).Inv ∧ (fullMemory 0xFFFFFFF8#32).isHalted = false ∧
      (fullMemory 0xFFFFFFF8#32).pc ≠ 0xFFFFFFFC#32) ∧
    ((fullMemory 0xFFFFFFFC#32).Inv ∧ (fullMemory 0xFFFFFFFC#32).isHalted = false ∧
      (fullMemory 0xFFFFFFFC#32).pc = 0xFFFFFFFC#32) ∧
    (∃ t, exec (.print 1#5) (fullMemory 0xFFFFFFFC#32) = .next t) ∧
    transferTarget (fullMemory 0xFFFFFFFC#32) (.print 1#5) = none ∧
    (∃ t, exec (.jal 1#5 0#21) (fullMemory 0xFFFFFFFC#32) = .next t) ∧
    ∃ t, exec (.jalr 1#5 0#5 2044#12) (fullMemory 0xFFFFFFFC#32) = .next t :=
  ⟨⟨loaded_inv, by decide, by decide⟩,
    ⟨fullMemory_inv _ (by decide), fullMemory_running _, fun h => absurd (congrArg BitVec.toNat h) (by decide)⟩,
    ⟨fullMemory_inv _ (by decide), fullMemory_running _, rfl⟩, ⟨_, rfl⟩, rfl, ⟨_, rfl⟩, ⟨_, rfl⟩⟩

theorem witness_OnlyHaltSetsTheFlag :
    (∃ t, exec .halt State.reset = .next t) ∧ (∃ t, exec (.print 0#5) State.reset.setHalted = .next t) :=
  ⟨⟨_, rfl⟩, ⟨_, rfl⟩⟩

theorem witness_OnlyPrintEmits :
    (∃ t, exec (.print 31#5) State.reset = .next t) ∧ (∃ t, exec (.add 1#5 2#5 3#5) State.reset = .next t) :=
  ⟨⟨_, rfl⟩, ⟨_, rfl⟩⟩

/-- A store of two bytes at 254, with a byte just below it, and an instruction that is no store. -/
theorem witness_OnlyStoresChangeMemory :
    let s := stateAt 0 0x13 [(1#5, 254#32)] []
    (∃ t, exec (.sh 2#5 1#5 0#12) s = .next t) ∧ storeOf s (.sh 2#5 1#5 0#12) = some (254#32, .half) ∧
      253 < (254#32 : Word).toNat ∧ (∃ t, exec (.lw 5#5 0#5 0#12) s = .next t) ∧ storeOf s (.lw 5#5 0#5 0#12) = none :=
  ⟨⟨_, rfl⟩, by decide, by decide, ⟨_, rfl⟩, rfl⟩

/-- Each clause at the edge of a data memory of 256 bytes, for halfwords and words; a byte is never misaligned. -/
theorem witness_MemReadRule :
    ((255#32 : Word).toNat % widthBytes .half ≠ 0 ∧ (253#32 : Word).toNat % widthBytes .word ≠ 0) ∧
    ((256#32 : Word).toNat % widthBytes .word = 0 ∧
      (stateAt 0 0x13 [] []).dmemSize < (256#32 : Word).toNat + widthBytes .word) ∧
    ((256#32 : Word).toNat % widthBytes .byte = 0 ∧
      (stateAt 0 0x13 [] []).dmemSize < (256#32 : Word).toNat + widthBytes .byte) ∧
    ((252#32 : Word).toNat % widthBytes .word = 0 ∧
      (252#32 : Word).toNat + widthBytes .word ≤ (stateAt 0 0x13 [] []).dmemSize) ∧
    ((255#32 : Word).toNat % widthBytes .byte = 0 ∧
      (255#32 : Word).toNat + widthBytes .byte ≤ (stateAt 0 0x13 [] []).dmemSize) := by decide

/-- A canonical memory, with `witness_MemReadRule`'s addresses; the first byte outside a store at 252 on each side. -/
theorem witness_MemWriteRule :
    (stateAt 0 0x13 [] [(3, 7#8), (252, 1#8)]).dmem.wf = true ∧
    (stateAt 0 0x13 [] [(3, 7#8), (252, 1#8)]).dmemSize = 256 ∧ 251 < (252#32 : Word).toNat ∧
    (252#32 : Word).toNat + widthBytes .word ≤ 256 := by decide

theorem witness_ByteLoadSeesWordStore :
    (stateAt 0 0x13 [] [(3, 7#8)]).dmem.wf = true ∧
      ∃ t, (stateAt 0 0x13 [] [(3, 7#8)]).memWrite 252#32 .word 0x01020304#32 = .ok t := ⟨by decide, _, rfl⟩

theorem witness_LoadReturnsLastStore :
    let s := stateAt 0 0x13 [(1#5, 252#32), (2#5, 0xAABBCCDD#32)] [(3, 7#8)]
    s.dmem.wf = true ∧ (5#5 : RegIdx) ≠ 0#5 ∧ (∃ t, exec (.sw 2#5 1#5 0#12) s = .next t) ∧
      (∃ t, exec (.sh 2#5 1#5 2#12) s = .next t) ∧ (∃ t, exec (.sb 2#5 1#5 3#12) s = .next t) :=
  ⟨by decide, by decide, ⟨_, rfl⟩, ⟨_, rfl⟩, ⟨_, rfl⟩⟩

/-- Operands at the ends of both orders, and equal ones. -/
theorem witness_RegisterAluResults :
    let s := stateAt 0 0x13 [(1#5, 0x80000000#32), (2#5, 0x7FFFFFFF#32)] []
    0x80000000#32 = s.readReg 1#5 ∧ 0x7FFFFFFF#32 = s.readReg 2#5 ∧ 0#32 = s.readReg 0#5 := by decide

/-- Shift amounts of 31 and of 32, which shifts by 0. -/
theorem witness_RegisterShiftResults :
    let s := stateAt 0 0x13 [(1#5, 0x8000001F#32), (2#5, 32#32)] []
    0x8000001F#32 = s.readReg 1#5 ∧ 32#32 = s.readReg 2#5 := by decide

theorem witness_ImmediateAluResults :
    let s := stateAt 0 0x13 [(1#5, 0x80000000#32)] []
    0x80000000#32 = s.readReg 1#5 ∧ 0#32 = s.readReg 0#5 := by decide

/-- The effective addresses of LoadRule's and StoreRule's clauses: the last place in range, the first out of range, and a
misaligned one, at each width. -/
theorem witness_LoadResults :
    let s := stateAt 0 0x13 [(1#5, 256#32)] []
    (s.readReg 1#5 + (0xFFC#12 : BitVec 12).signExtend 32 = 252#32 ∧ (252#32 : Word).toNat % widthBytes .word = 0 ∧
      (252#32 : Word).toNat + widthBytes .word ≤ s.dmemSize) ∧
    ((254#32 : Word).toNat % widthBytes .half = 0 ∧ (254#32 : Word).toNat + widthBytes .half ≤ s.dmemSize) ∧
    ((255#32 : Word).toNat % widthBytes .byte = 0 ∧ (255#32 : Word).toNat + widthBytes .byte ≤ s.dmemSize) ∧
    ((253#32 : Word).toNat % widthBytes .word ≠ 0 ∧ (255#32 : Word).toNat % widthBytes .half ≠ 0) ∧
    (s.readReg 1#5 + (0#12 : BitVec 12).signExtend 32 = 256#32 ∧ (256#32 : Word).toNat % widthBytes .word = 0 ∧
      s.dmemSize < (256#32 : Word).toNat + widthBytes .word ∧ s.dmemSize < (256#32 : Word).toNat + widthBytes .half ∧
      s.dmemSize < (256#32 : Word).toNat + widthBytes .byte) := by decide

/-- As for the loads, with a canonical memory. -/
theorem witness_StoreResults :
    let s := stateAt 0 0x13 [(1#5, 256#32)] [(3, 7#8)]
    s.dmem.wf = true ∧
    (s.readReg 1#5 + (0xFFC#12 : BitVec 12).signExtend 32 = 252#32 ∧ (252#32 : Word).toNat % widthBytes .word = 0 ∧
      (252#32 : Word).toNat + widthBytes .word ≤ s.dmemSize) ∧
    ((253#32 : Word).toNat % widthBytes .word ≠ 0 ∧ (255#32 : Word).toNat % widthBytes .half ≠ 0) ∧
    (s.readReg 1#5 + (0#12 : BitVec 12).signExtend 32 = 256#32 ∧ (256#32 : Word).toNat % widthBytes .word = 0 ∧
      s.dmemSize < (256#32 : Word).toNat + widthBytes .word ∧
      s.dmemSize < (256#32 : Word).toNat + widthBytes .byte) := by decide

/-- Each condition true and false (equal operands; the least and the greatest signed value), with a target that is a
multiple of 4 and one that is not. -/
theorem witness_BranchResults :
    let s := stateAt 0 0x13 [(1#5, 0x80000000#32), (2#5, 0x7FFFFFFF#32)] []
    s.readReg 1#5 = s.readReg 1#5 ∧ s.readReg 1#5 ≠ s.readReg 2#5 ∧
    (s.readReg 1#5).toInt < (s.readReg 2#5).toInt ∧ ¬ (s.readReg 1#5).toInt < (s.readReg 1#5).toInt ∧
    (s.readReg 2#5).toNat < (s.readReg 1#5).toNat ∧ ¬ (s.readReg 1#5).toNat < (s.readReg 1#5).toNat ∧
    ((4092#13 : BitVec 13).signExtend 32 : Word).toNat % 4 = 0 ∧
    ((6#13 : BitVec 13).signExtend 32 : Word).toNat % 4 ≠ 0 := by decide

/-- An aligned and a misaligned target of jal and of jalr. -/
theorem witness_JumpResults :
    let s := stateAt 0 0x13 [(1#5, 0xFFFFFFFC#32)] []
    ((1048572#21 : BitVec 21).signExtend 32 : Word).toNat % 4 = 0 ∧
    ((2#21 : BitVec 21).signExtend 32 : Word).toNat % 4 ≠ 0 ∧
    (s.readReg 1#5 + (8#12 : BitVec 12).signExtend 32 : Word).toNat % 4 = 0 ∧
    (s.readReg 1#5 + (5#12 : BitVec 12).signExtend 32 : Word).toNat % 4 ≠ 0 := by decide

/-- The default and another legal CUSTOM_OPCODE, with a branch to the last even target. -/
theorem witness_DecodeOfEncode :
    validCustomOpcode 0b0001011#7 = true ∧ validCustomOpcode 0b1111011#7 = true ∧
    (Instr.beq 31#5 1#5 0x1FFE#13).wf = true ∧ (Instr.jal 31#5 0x1FFFFE#21).wf = true := by decide

theorem witness_EncodeOfDecode : decode 0b0001011#7 0xFFF00293#32 = .ok (.addi 5#5 0#5 0xFFF#12) := by decide

theorem witness_DecodeMatchesOpcodeTable :
    decode 0b0001011#7 0x40208133#32 = .ok (.sub 2#5 1#5 2#5) ∧
    ((0x0000000B#32, 0xFFFFFFFF#32) ∈ tableRows ∧ 0x0000000B#32 &&& 0xFFFFFFFF#32 = 0x0000000B#32) ∧
    ((0x00000033#32, 0xFE00707F#32) ∈ tableRows ∧ 0x01FF8FB3#32 &&& 0xFE00707F#32 = 0x00000033#32) := by decide

/-- A halt word, the last print word, and words of the class that are neither. -/
theorem witness_CustomClassDecodes :
    (0x0000000B#32 : Word).extractLsb' 0 7 = 0b0001011#7 ∧ decode 0b0001011#7 0x0000000B#32 = .ok .halt ∧
    (0x00001F8B#32 : Word).extractLsb' 0 7 = 0b0001011#7 ∧ decode 0b0001011#7 0x00001F8B#32 = .ok (.print 31#5) ∧
    (0x0000008B#32 : Word).extractLsb' 0 7 = 0b0001011#7 ∧
      decode 0b0001011#7 0x0000008B#32 = .error .unsupportedCustomOp := by decide

/-- A word for each clause, none of them of the CUSTOM_OPCODE class (X6, X4, X5, X16, X18, X12, X13, X14, X15, X19, X3). -/
theorem witness_IllegalWordsDoNotDecode :
    validCustomOpcode 0b0001011#7 = true ∧
    (0x00000197#32 : Word).extractLsb' 0 7 ∈ [0b0010111#7, 0b0001111#7, 0b1110011#7] ∧
    ((0x022081B3#32 : Word).extractLsb' 0 7 = 0x33#7 ∧
      (0x022081B3#32 : Word).extractLsb' 25 7 ∉ [0b0000000#7, 0b0100000#7]) ∧
    ((0x402091B3#32 : Word).extractLsb' 0 7 = 0x33#7 ∧ (0x402091B3#32 : Word).extractLsb' 25 7 = 0b0100000#7 ∧
      (0x402091B3#32 : Word).extractLsb' 12 3 ∉ [0b000#3, 0b101#3]) ∧
    ((0x02009293#32 : Word).extractLsb' 0 7 = 0x13#7 ∧ (0x02009293#32 : Word).extractLsb' 12 3 = 0b001#3 ∧
      (0x02009293#32 : Word).extractLsb' 25 7 ≠ 0b0000000#7) ∧
    ((0x2040D293#32 : Word).extractLsb' 0 7 = 0x13#7 ∧ (0x2040D293#32 : Word).extractLsb' 12 3 = 0b101#3 ∧
      (0x2040D293#32 : Word).extractLsb' 25 7 ∉ [0b0000000#7, 0b0100000#7]) ∧
    ((0x0000E283#32 : Word).extractLsb' 0 7 = 0x03#7 ∧ (0x0000E283#32 : Word).extractLsb' 12 3 ∈ [3#3, 6#3, 7#3]) ∧
    ((0x0020B023#32 : Word).extractLsb' 0 7 = 0x23#7 ∧
      (0x0020B023#32 : Word).extractLsb' 12 3 ∈ [3#3, 4#3, 5#3, 6#3, 7#3]) ∧
    ((0x00002063#32 : Word).extractLsb' 0 7 = 0x63#7 ∧ (0x00002063#32 : Word).extractLsb' 12 3 ∈ [2#3, 3#3]) ∧
    ((0x00001067#32 : Word).extractLsb' 0 7 = 0x67#7 ∧ (0x00001067#32 : Word).extractLsb' 12 3 ≠ 0#3) ∧
    ((0x0000002B#32 : Word).extractLsb' 0 7 ≠ 0b0001011#7 ∧ (0x0000002B#32 : Word).extractLsb' 0 7 ∉ majorOpcodes) ∧
    (0x00000001#32 : Word).extractLsb' 0 2 ≠ 0b11#2 := by decide

theorem witness_TargetBitPlacement :
    Instr.bgeu 1#5 2#5 64#13 ∈ [Instr.beq 1#5 2#5 64#13, .bne 1#5 2#5 64#13, .blt 1#5 2#5 64#13, .bge 1#5 2#5 64#13,
      .bltu 1#5 2#5 64#13, .bgeu 1#5 2#5 64#13] := by decide

/-- `x32` and `x05` are no register names; the last numeric name and a second name of x8 are. -/
theorem witness_RegisterNamesResolve :
    (∀ p ∈ registerNamePairs, p.1.toList ≠ "x32".toList) ∧ (∀ p ∈ registerNamePairs, p.1.toList ≠ "x05".toList) ∧
    ("x31", 31) ∈ registerNamePairs ∧ ("fp", 8) ∈ registerNamePairs := by decide

/-- A comma ends a token or does not. -/
theorem namesReg_a0 : NamesReg "a0,".toList 10#5 ∧ NamesReg "a0".toList 10#5 :=
  ⟨⟨"a0".toList, .inl rfl, rfl⟩, ⟨"a0".toList, .inr ⟨rfl, by decide⟩, rfl⟩⟩

/-- What each operand list asks of a line, at a last value of its range; and a line that the encoder accepts. -/
theorem witness_AssembledWordDecodes :
    NamesReg "a0,".toList 10#5 ∧ resolveReg "x31".toList = .ok 31#5 ∧ intLiteral "-2048".toList = some (-2048) ∧
    intLiteral "31".toList = some 31 ∧ intLiteral "1048575".toList = some 1048575 ∧
    TargetMeans [("L".toList, 4092#32)] "L".toList 4092 ∧ TargetMeans [] "1048574".toList 1048574 ∧
    TargetMeans [] "2047".toList 2047 ∧ validCustomOpcode 0b0001011#7 = true ∧
    encodeTokens 0b0001011#7 [("L".toList, 4#32)] ["beq".toList, "x0,".toList, "x0,".toList, "L".toList] =
      .ok 0x00000263#32 :=
  ⟨namesReg_a0.1, by decide, by decide, by decide, by decide, .inr ⟨by decide, 4092#32, by decide, by decide⟩,
    .inl (by decide), .inl (by decide), by decide, by decide⟩

/-- A line of each operand list at an end of its range, with and without commas. -/
theorem witness_OperandValuesSurvive :
    parseInstr [] ["addi".toList, "a0,".toList, "x1".toList, "-2048".toList] = .ok (.addi 10#5 1#5 0x800#12) ∧
    parseInstr [] ["sw".toList, "x2,".toList, "x1,".toList, "2047".toList] = .ok (.sw 2#5 1#5 2047#12) ∧
    parseInstr [] ["srai".toList, "x5,".toList, "x1,".toList, "31".toList] = .ok (.srai 5#5 1#5 31#5) ∧
    parseInstr [] ["bne".toList, "x5,".toList, "x1,".toList, "-4096".toList] = .ok (.bne 5#5 1#5 0x1000#13) ∧
    parseInstr [("L".toList, 4092#32)] ["bne".toList, "x5,".toList, "x1,".toList, "L".toList] =
      .ok (.bne 5#5 1#5 4092#13) ∧
    parseInstr [] ["jal".toList, "ra,".toList, "-1048576".toList] = .ok (.jal 1#5 0x100000#21) ∧
    parseInstr [] ["jalr".toList, "ra,".toList, "sp,".toList, "2047".toList] = .ok (.jalr 1#5 2#5 2047#12) ∧
    parseInstr [] ["lui".toList, "x5,".toList, "-524288".toList] = .ok (.lui 5#5 0x80000#20) := by decide

theorem witness_LabelBindsNextAddress :
    passOne ([.instruction ["halt".toList], .blank] ++ .label "L".toList :: [.instruction ["halt".toList]]) =
      .ok [("L".toList, 4#32)] := by decide

theorem witness_OneWordPerInstructionLine :
    assembleLines 0b0001011#7 [.label "L".toList, .instruction ["halt".toList], .blank] = .ok [0x0000000B#32] := by decide

/-- Two tables that define the same labels in another order. -/
theorem witness_WordDependsOnAddressesOnly :
    ∀ name, resolveSym [("a".toList, 0#32), ("b".toList, 4#32)] name = resolveSym [("b".toList, 4#32), ("a".toList, 0#32)] name := by
  intro name
  by_cases ha : name = "a".toList
  · subst ha; rfl
  · by_cases hb : name = "b".toList
    · subst hb; rfl
    · have ha' : "a".toList ≠ name := fun e => ha e.symm
      have hb' : "b".toList ≠ name := fun e => hb e.symm
      simp only [resolveSym, lookupName, ha', hb', if_false]

theorem witness_EncoderErrorOrder :
    lookupName "foo".toList mnemonicForms = none ∧ lookupName "add".toList mnemonicForms = some (.threeRegs .add) ∧
    ["x1,".toList, "x2".toList].length ≠ formArity (.threeRegs .add) := ⟨rfl, rfl, by decide⟩

theorem witness_LoaderReadsAssemblerOutput : [0x13#32, 0x0000000B#32].length ≤ 1073741824 := by decide

end Sys2Proof.Tests
end

section
/-! The decoder drops no bit: a word that decodes is the word of its instruction (30_encoding.md R118). A word is first
shown to be determined by the fields of its format; the laws of the encoded fields then give the word back. -/

namespace Sys2Proof

/-! A word is determined by the fields of its format (R102 to R108). -/

/-- Two equal appends of the same widths have equal parts. -/
theorem append_parts_eq {m n : Nat} {a a' : BitVec m} {b b' : BitVec n} (h : a ++ b = a' ++ b') : a = a' ∧ b = b' := by
  have hi := congrArg (BitVec.extractLsb' n m) h
  have lo := congrArg (BitVec.extractLsb' 0 n) h
  rw [BitVec.extractLsb'_append_eq_left, BitVec.extractLsb'_append_eq_left] at hi
  rw [BitVec.extractLsb'_append_eq_right, BitVec.extractLsb'_append_eq_right] at lo
  exact ⟨hi, lo⟩

/-- Two words that agree in two adjacent fields agree in the field made of both. -/
theorem extract_eq_of_adjacent {v w : Word} (low n m : Nat)
    (hi : v.extractLsb' (low + n) m = w.extractLsb' (low + n) m) (lo : v.extractLsb' low n = w.extractLsb' low n) :
    v.extractLsb' low (m + n) = w.extractLsb' low (m + n) := by
  rw [← BitVec.extractLsb'_append_extractLsb'_eq_extractLsb' rfl, hi, lo,
    BitVec.extractLsb'_append_extractLsb'_eq_extractLsb' rfl]

/-- U-type fields (R107). -/
theorem word_ext_U {v w : Word} (himm : immUOf v = immUOf w) (hrd : rdOf v = rdOf w)
    (hop : opcodeOf v = opcodeOf w) : v = w := by
  have h : v.extractLsb' 0 32 = w.extractLsb' 0 32 :=
    extract_eq_of_adjacent 0 12 20 himm (extract_eq_of_adjacent 0 7 5 hrd hop)
  rwa [BitVec.extractLsb'_eq_self, BitVec.extractLsb'_eq_self] at h

/-- Custom fields: the seventeen reserved bits, funct3 and rd (R108). -/
theorem word_ext_custom {v w : Word} (hres : v.extractLsb' 15 17 = w.extractLsb' 15 17)
    (hf3 : funct3Of v = funct3Of w) (hrd : rdOf v = rdOf w) (hop : opcodeOf v = opcodeOf w) : v = w :=
  word_ext_U (extract_eq_of_adjacent 12 3 17 hres hf3) hrd hop

/-- I-type fields (R103). -/
theorem word_ext_I {v w : Word} (himm : immIOf v = immIOf w) (hrs1 : rs1Of v = rs1Of w)
    (hf3 : funct3Of v = funct3Of w) (hrd : rdOf v = rdOf w) (hop : opcodeOf v = opcodeOf w) : v = w :=
  word_ext_custom (extract_eq_of_adjacent 15 5 12 himm hrs1) hf3 hrd hop

/-- R-type fields (R102). -/
theorem word_ext_R {v w : Word} (hf7 : funct7Of v = funct7Of w) (hrs2 : rs2Of v = rs2Of w)
    (hrs1 : rs1Of v = rs1Of w) (hf3 : funct3Of v = funct3Of w) (hrd : rdOf v = rdOf w)
    (hop : opcodeOf v = opcodeOf w) : v = w :=
  word_ext_I (extract_eq_of_adjacent 20 5 7 hf7 hrs2) hrs1 hf3 hrd hop

/-- S-type fields (R104): the immediate gives funct7's bits and rd's. -/
theorem word_ext_S {v w : Word} (himm : immSOf v = immSOf w) (hrs2 : rs2Of v = rs2Of w) (hrs1 : rs1Of v = rs1Of w)
    (hf3 : funct3Of v = funct3Of w) (hop : opcodeOf v = opcodeOf w) : v = w := by
  obtain ⟨hf7, hrd⟩ := append_parts_eq himm
  exact word_ext_R hf7 hrs2 hrs1 hf3 hrd hop

/-- B-type fields (R105): the target's four pieces give funct7's bits and rd's. -/
theorem word_ext_B {v w : Word} (himm : immBOf v = immBOf w) (hrs2 : rs2Of v = rs2Of w) (hrs1 : rs1Of v = rs1Of w)
    (hf3 : funct3Of v = funct3Of w) (hop : opcodeOf v = opcodeOf w) : v = w := by
  obtain ⟨himm, -⟩ := append_parts_eq himm
  obtain ⟨himm, h8⟩ := append_parts_eq himm
  obtain ⟨himm, h25⟩ := append_parts_eq himm
  obtain ⟨h31, h7⟩ := append_parts_eq himm
  exact word_ext_R (extract_eq_of_adjacent 25 6 1 h31 h25) hrs2 hrs1 hf3 (extract_eq_of_adjacent 7 1 4 h8 h7) hop

/-- J-type fields (R106): the target's four pieces give the U-type field's bits. -/
theorem word_ext_J {v w : Word} (himm : immJOf v = immJOf w) (hrd : rdOf v = rdOf w)
    (hop : opcodeOf v = opcodeOf w) : v = w := by
  obtain ⟨himm, -⟩ := append_parts_eq himm
  obtain ⟨himm, h21⟩ := append_parts_eq himm
  obtain ⟨himm, h20⟩ := append_parts_eq himm
  obtain ⟨h31, h12⟩ := append_parts_eq himm
  have h20to30 := extract_eq_of_adjacent 20 1 10 h21 h20
  have h20to31 := extract_eq_of_adjacent 20 11 1 h31 h20to30
  exact word_ext_U (extract_eq_of_adjacent 12 8 12 h20to31 h12) hrd hop

/-! Encoding the fields the decoder extracts gives the word back, format by format. -/

/-- The decoded branch target is even (R105). -/
theorem immBOf_even (w : Word) : (immBOf w).getLsbD 0 = false := by
  rw [immBOf, BitVec.getLsbD_append]; rfl

/-- The decoded jal target is even (R106). -/
theorem immJOf_even (w : Word) : (immJOf w).getLsbD 0 = false := by
  rw [immJOf, BitVec.getLsbD_append]; rfl

theorem encodeR_of_fields {w : Word} {f7 : BitVec 7} {f3 : BitVec 3} {op : Opcode} (hf7 : funct7Of w = f7)
    (hf3 : funct3Of w = f3) (hop : opcodeOf w = op) : encodeR f7 (rs2Of w) (rs1Of w) f3 (rdOf w) op = w := by
  subst hf7 hf3 hop
  exact word_ext_R (funct7Of_encodeR ..) (rs2Of_encodeR ..) (rs1Of_encodeR ..) (funct3Of_encodeR ..) (rdOf_encodeR ..)
    (opcodeOf_encodeR ..)

theorem encodeI_of_fields {w : Word} {f3 : BitVec 3} {op : Opcode} (hf3 : funct3Of w = f3) (hop : opcodeOf w = op) :
    encodeI (immIOf w) (rs1Of w) f3 (rdOf w) op = w := by
  subst hf3 hop
  exact word_ext_I (immIOf_encodeI ..) (rs1Of_encodeI ..) (funct3Of_encodeI ..) (rdOf_encodeI ..) (opcodeOf_encodeI ..)

theorem encodeS_of_fields {w : Word} {f3 : BitVec 3} (hf3 : funct3Of w = f3) (hop : opcodeOf w = opStore) :
    encodeS (immSOf w) (rs2Of w) (rs1Of w) f3 = w := by
  subst hf3
  exact word_ext_S (immSOf_encodeS ..) (rs2Of_encodeS ..) (rs1Of_encodeS ..) (funct3Of_encodeS ..)
    ((opcodeOf_encodeS ..).trans hop.symm)

theorem encodeB_of_fields {w : Word} {f3 : BitVec 3} (hf3 : funct3Of w = f3) (hop : opcodeOf w = opBranch) :
    encodeB (immBOf w) (rs2Of w) (rs1Of w) f3 = w := by
  subst hf3
  exact word_ext_B ((immBOf_encodeB ..).trans (append_zero_of_even _ (immBOf_even w))) (rs2Of_encodeB ..)
    (rs1Of_encodeB ..) (funct3Of_encodeB ..) ((opcodeOf_encodeB ..).trans hop.symm)

theorem encodeJ_of_fields {w : Word} (hop : opcodeOf w = opJal) : encodeJ (immJOf w) (rdOf w) = w :=
  word_ext_J ((immJOf_encodeJ ..).trans (append_zero_of_even _ (immJOf_even w))) (rdOf_encodeJ ..)
    ((opcodeOf_encodeJ ..).trans hop.symm)

theorem encodeU_of_fields {w : Word} (hop : opcodeOf w = opLui) : encodeU (immUOf w) (rdOf w) = w :=
  word_ext_U (immUOf_encodeU ..) (rdOf_encodeU ..) ((opcodeOf_encodeU ..).trans hop.symm)

theorem encodeCustom_of_fields {w : Word} {f3 : BitVec 3} {rd : RegIdx} {custom : Opcode}
    (hres : w.extractLsb' 15 17 = 0#17) (hf3 : funct3Of w = f3) (hrd : rdOf w = rd) (hop : opcodeOf w = custom) :
    encodeCustom f3 rd custom = w := by
  subst hf3 hrd hop
  exact word_ext_custom ((reserved_encodeCustom ..).trans hres.symm) (funct3Of_encodeCustom ..) (rdOf_encodeCustom ..)
    (opcodeOf_encodeCustom ..)

/-! Each opcode's decoder, and the decoder (R118). Where the decoder's last branch leaves one funct3, `bv_omega` finds it. -/

theorem encode_of_decodeOp {custom : Opcode} {w : Word} {i : Instr} (hop : opcodeOf w = opOp)
    (h : decodeOp w = .ok i) : encode custom i = w := by
  unfold decodeOp at h
  split_ifs at h <;> cases h
  all_goals exact encodeR_of_fields ‹_› (by bv_omega) hop

theorem encode_of_decodeOpImm {custom : Opcode} {w : Word} {i : Instr} (hop : opcodeOf w = opOpImm)
    (h : decodeOpImm w = .ok i) : encode custom i = w := by
  unfold decodeOpImm at h
  split_ifs at h <;> cases h
  -- the six immediate operations, then the three shifts, whose words are R-type
  iterate 6 · exact encodeI_of_fields ‹_› hop
  all_goals exact encodeR_of_fields ‹_› (by bv_omega) hop

theorem encode_of_decodeLoad {custom : Opcode} {w : Word} {i : Instr} (hop : opcodeOf w = opLoad)
    (h : decodeLoad w = .ok i) : encode custom i = w := by
  unfold decodeLoad at h
  split_ifs at h <;> cases h
  all_goals exact encodeI_of_fields ‹_› hop

theorem encode_of_decodeStore {custom : Opcode} {w : Word} {i : Instr} (hop : opcodeOf w = opStore)
    (h : decodeStore w = .ok i) : encode custom i = w := by
  unfold decodeStore at h
  split_ifs at h <;> cases h
  all_goals exact encodeS_of_fields ‹_› hop

theorem encode_of_decodeBranch {custom : Opcode} {w : Word} {i : Instr} (hop : opcodeOf w = opBranch)
    (h : decodeBranch w = .ok i) : encode custom i = w := by
  unfold decodeBranch at h
  split_ifs at h <;> cases h
  all_goals exact encodeB_of_fields ‹_› hop

theorem encode_of_decodeCustom {custom : Opcode} {w : Word} {i : Instr} (hop : opcodeOf w = custom)
    (h : decodeCustom w = .ok i) : encode custom i = w := by
  unfold decodeCustom at h
  split_ifs at h with hf3 hhalt hf3' hprint <;> cases h
  · exact encodeCustom_of_fields hhalt.1 hf3 hhalt.2 hop
  · exact encodeCustom_of_fields hprint hf3' rfl hop

/-- The decoder drops no bit. CUSTOM_OPCODE need not be a legal one: the decoder tests it first, and the encoder places it. -/
theorem encode_of_decode {custom : Opcode} {w : Word} {i : Instr} (h : decode custom w = .ok i) :
    encode custom i = w := by
  unfold decode at h
  split_ifs at h with hc hop hopImm hload hstore hbranch hjal hjalr hf3 hlui
  · exact encode_of_decodeCustom hc h
  · exact encode_of_decodeOp hop h
  · exact encode_of_decodeOpImm hopImm h
  · exact encode_of_decodeLoad hload h
  · exact encode_of_decodeStore hstore h
  · exact encode_of_decodeBranch hbranch h
  · cases h; exact encodeJ_of_fields hjal
  · cases h; exact encodeI_of_fields hf3 hjalr
  · cases h; exact encodeU_of_fields hlui

end Sys2Proof
end

section
/-! What a fault of an instruction and of a step says (40_execute_cycle.md R170, R172; 60_exceptions.md R301). -/

namespace Sys2Proof.Machine

/-! The shared operations: the counterparts of `loadOp_next`, `storeOp_next`, `jumpTo_next` and `branchOp_next`. -/

/-- A load faults with the kind its check gives. -/
theorem loadOp_fault {s : State} {i : Instr} {n : Width} {signed : Bool} {rd rs1 : RegIdx} {imm : BitVec 12} {f : Fault}
    (h : s.loadOp i n signed rd rs1 imm = .fault f) :
    ∃ k, s.checkAccess (s.effAddr rs1 imm) n = some k ∧ f = .faulted k s.pc (encode s.customOpcode i) := by
  rw [loadOp_eq] at h
  split at h
  · cases h; exact ⟨_, ‹_›, rfl⟩
  · cases h

/-- A store faults with the kind its check gives. -/
theorem storeOp_fault {s : State} {i : Instr} {n : Width} {rs2 rs1 : RegIdx} {imm : BitVec 12} {f : Fault}
    (h : s.storeOp i n rs2 rs1 imm = .fault f) :
    ∃ k, s.checkAccess (s.effAddr rs1 imm) n = some k ∧ f = .faulted k s.pc (encode s.customOpcode i) := by
  rw [storeOp_eq] at h
  split at h
  · cases h; exact ⟨_, ‹_›, rfl⟩
  · cases h

/-- A transfer faults on an address that is no multiple of 4. -/
theorem jumpTo_fault {s : State} {i : Instr} {t : Word} {after : State} {f : Fault} (h : s.jumpTo i t after = .fault f) :
    t.toNat % 4 ≠ 0 ∧ f = .faulted .misalignedTarget s.pc (encode s.customOpcode i) := by
  by_cases ha : t.toNat % 4 = 0
  · rw [jumpTo_aligned s i t after ha] at h
    cases h
  · rw [jumpTo_misaligned s i t after ha] at h
    cases h
    exact ⟨ha, rfl⟩

/-- A branch faults when it is taken to an address that is no multiple of 4. -/
theorem branchOp_fault {s : State} {i : Instr} {cond : Word → Word → Bool} {rs1 rs2 : RegIdx} {tgt : BitVec 13} {f : Fault}
    (h : s.branchOp i cond rs1 rs2 tgt = .fault f) :
    cond (s.readReg rs1) (s.readReg rs2) = true ∧ (branchTarget tgt).toNat % 4 ≠ 0 ∧
      f = .faulted .misalignedTarget s.pc (encode s.customOpcode i) := by
  rw [branchOp_eq] at h
  split at h
  · exact ⟨‹_›, jumpTo_fault h⟩
  · cases h

/-- An instruction that faults records its address and its own word. -/
theorem exec_fault_records {i : Instr} {s : State} {f : Fault} (h : exec i s = .fault f) :
    ∃ kind, f = .faulted kind s.pc (encode s.customOpcode i) := by
  cases i
  case add | sub | sll | slt | sltu | xor | srl | sra | or | and | addi | slti | sltiu | xori | ori | andi | slli | srli
      | srai | lui | halt | print => cases h
  case lb | lh | lw | lbu | lhu =>
    obtain ⟨k, -, hf⟩ := loadOp_fault h
    exact ⟨k, hf⟩
  case sb | sh | sw =>
    obtain ⟨k, -, hf⟩ := storeOp_fault h
    exact ⟨k, hf⟩
  case beq | bne | blt | bge | bltu | bgeu =>
    obtain ⟨-, -, hf⟩ := branchOp_fault h
    exact ⟨_, hf⟩
  case jal | jalr =>
    obtain ⟨-, hf⟩ := jumpTo_fault h
    exact ⟨_, hf⟩

/-- A step that answers `Faulted` fetched a word, and the fault came from decoding it or from executing its
instruction. -/
theorem step_faulted {s : State} {kind : FaultKind} {pc w : Word} (h : step s = .fault (.faulted kind pc w)) :
    s.isHalted = false ∧ ∃ v, s.fetch = some v ∧
      ((∃ k, decode s.customOpcode v = .error k ∧ kind = faultOfDecode k ∧ pc = s.pc ∧ w = v) ∨
        ∃ i, decode s.customOpcode v = .ok i ∧ exec i s = .fault (.faulted kind pc w)) := by
  have hrun : s.isHalted = false := by
    by_contra hh
    rw [step, if_pos (by simpa using hh)] at h
    cases h
  obtain ⟨v, hv⟩ := fetch_of_not_halted hrun
  refine ⟨hrun, v, hv, ?_⟩
  rw [step_eq hrun hv] at h
  split at h
  · cases h; exact .inl ⟨_, ‹_›, rfl, rfl, rfl⟩
  · exact .inr ⟨_, ‹_›, h⟩

/-- Settles O13. A fault of decoding records the fetched word itself; a fault of executing records the encoding of the
decoded instruction, which is the fetched word because the decoder drops no bit. -/
theorem faultRecordsPcAndWord : Obligations.FaultRecordsPcAndWord := by
  intro s kind pc w h
  obtain ⟨hrun, v, hv, ⟨k, -, -, hpc, hw⟩ | ⟨i, hdec, hexec⟩⟩ := step_faulted h
  · exact ⟨hrun, hpc, hw ▸ hv⟩
  · obtain ⟨kind', hf⟩ := exec_fault_records hexec
    rw [encode_of_decode hdec] at hf
    cases hf
    exact ⟨hrun, rfl, hv⟩

end Sys2Proof.Machine
end

section
/-! The invariant (10_state.md R32, R35, R43): each update of the state keeps it, so every effect of an
instruction does. -/

namespace Sys2Proof.Machine

/-- The sequential next address of a multiple of 4 is one, the wrap at the top included (R35, R38). -/
theorem add_four_aligned {pc : Word} (h : pc.toNat % 4 = 0) : (pc + 4#32).toNat % 4 = 0 := by
  rw [BitVec.toNat_add]
  have := pc.isLt
  simp only [BitVec.toNat_ofNat]
  omega

theorem State.Inv.writeReg {s : State} (h : s.Inv) (rd : RegIdx) (v : Word) : (s.writeReg rd v).Inv where
  zero := writeReg_regs_zero s rd v h.zero
  pcAligned := by simpa using h.pcAligned
  memWf := by simpa using h.memWf
  memWithin := by simpa using h.memWithin
  launch := by simpa using h.launch

theorem State.Inv.setPc {s : State} (h : s.Inv) {t : Word} (ht : t.toNat % 4 = 0) : (s.setPc t).Inv :=
  ⟨h.zero, ht, h.memWf, h.memWithin, h.launch⟩

theorem State.Inv.advancePc {s : State} (h : s.Inv) : s.advancePc.Inv := h.setPc (add_four_aligned h.pcAligned)

theorem State.Inv.setHalted {s : State} (h : s.Inv) : s.setHalted.Inv :=
  ⟨h.zero, h.pcAligned, h.memWf, h.memWithin, h.launch⟩

theorem State.Inv.emit {s : State} (h : s.Inv) (v : Word) : (s.emit v).Inv :=
  ⟨h.zero, h.pcAligned, h.memWf, h.memWithin, h.launch⟩

/-- A store that passed its check stays inside DMEM_SIZE (R64, R68). -/
theorem State.Inv.afterStore {s : State} (h : s.Inv) {ea : Word} {n : Width} (v : Word)
    (hc : s.checkAccess ea n = none) : (afterStore s ea n v).Inv where
  zero := h.zero
  pcAligned := add_four_aligned h.pcAligned
  memWf := write_wf _ _ _ h.memWf
  memWithin := write_within _ _ _ h.memWithin ((checkAccess_eq_none s ea n).mp hc).2
  launch := h.launch

/-- Every effect of an instruction keeps the invariant; a transfer does because its target is a multiple of 4 (D4). -/
theorem exec_keeps_inv {i : Instr} {s t : State} (hs : s.Inv) (h : exec i s = .next t) : t.Inv := by
  cases exec_effect h with
  | register rd v => exact (hs.writeReg rd v).advancePc
  | link rd v u _ _ _ _ _ ha => exact (hs.writeReg rd v).setPc ha
  | fallThrough => exact hs.advancePc
  | taken u _ _ _ _ _ ha => exact hs.setPc ha
  | store ea n v _ _ _ _ _ hc => exact hs.afterStore v hc
  | halted => exact hs.setHalted
  | printed rs => exact (hs.emit _).advancePc

/-- Settles O5: a step executes one instruction, and no instruction breaks the invariant. -/
theorem stepKeepsInv : Obligations.StepKeepsInv := by
  intro s t hs h
  obtain ⟨-, w, i, -, -, hexec⟩ := step_next h
  exact exec_keeps_inv hs hexec

end Sys2Proof.Machine
end

section
/-! Launch and reset (10_state.md R46, R47), and the invariant of every reachable state. -/

namespace Sys2Proof.Machine

@[simp] theorem reset_readReg (r : RegIdx) : State.reset.readReg r = 0#32 := by
  unfold State.readReg
  split
  · rfl
  · exact Vector.getElem_replicate _

/-- Where every byte is the unlisted one, no cell is listed. -/
theorem ofBytesFrom_unlisted (base n : Nat) : Memory.ofBytesFrom (fun _ => Memory.unlisted) base n = [] := by
  induction n generalizing base with
  | zero => rfl
  | succ n ih => simpa [Memory.ofBytesFrom] using ih (base + 1)

/-- Settles O1: a legal load gives the reset state with the launch parameters in place, so its fields are theirs, and a
byte of its data memory is DMEM_INIT's. -/
theorem loadGivesResetValues : Obligations.LoadGivesResetValues := by
  intro words size init custom hl
  have hmem (a : Nat) (ha : a < size) : (Memory.ofBytes size init).readByte a = init a :=
    readByte_ofBytesFrom init 0 size a (Nat.zero_le a) (by omega)
  exact ⟨_, if_pos hl, rfl, reset_readReg, rfl, rfl, rfl, rfl, hmem, rfl⟩

/-- Settles O4: pc and register 0 are reset's, data memory is made of DMEM_INIT's bytes below DMEM_SIZE, and `load`
itself has checked the launch parameters. -/
theorem loadedStateMeetsInv : Obligations.LoadedStateMeetsInv := by
  intro words size init custom s h
  obtain ⟨hl, rfl⟩ := load_some h
  exact
    { zero := Vector.getElem_replicate _
      pcAligned := rfl
      memWf := ofBytes_wf size init
      memWithin := ofBytesFrom_within init 0 size size (by omega)
      launch := hl }

/-- Settles O2: an all-zero DMEM_INIT lists no cell, so the loaded data memory is reset's empty list. -/
theorem resetIsLoadOfNothing : Obligations.ResetIsLoadOfNothing := by
  have hl : launchAllowed [] resetDmemSize resetCustomOpcode = true := by decide
  have hm : Memory.ofBytes resetDmemSize (fun _ => 0#8) = [] := ofBytesFrom_unlisted 0 resetDmemSize
  rw [Obligations.ResetIsLoadOfNothing, State.load, if_pos hl, hm]
  rfl

/-- Settles O3: the reset state is a loaded one. -/
theorem resetMeetsInv : Obligations.ResetMeetsInv :=
  loadedStateMeetsInv _ _ _ _ _ resetIsLoadOfNothing

/-- Every reachable state meets the invariant. -/
theorem Reachable.inv {s : State} (h : Reachable s) : s.Inv := by
  induction h with
  | load words size init custom s hload => exact loadedStateMeetsInv words size init custom s hload
  | step s t _ hstep ih => exact stepKeepsInv s t ih hstep

/-- Settles O6 by the invariant; the fetch index is exact because pc is a multiple of 4. -/
theorem reachablePcAligned : Obligations.ReachablePcAligned := by
  intro s h
  have hpc := h.inv.pcAligned
  exact ⟨hpc, by omega, h.inv.zero⟩

end Sys2Proof.Machine
end

section
/-! What an instruction that completes changes: the destination register, pc, the halt flag, the output stream
(10_state.md R34, R37, R39, R44), and never the launch parameters (R42). Each is read off the seven effects. -/

namespace Sys2Proof.Machine

/-- Settles O19 by the laws of the register file. -/
theorem registerFileLaws : Obligations.RegisterFileLaws := fun s i v =>
  ⟨readReg_zero s, writeReg_zero s v, readReg_writeReg_same s i v, fun r => readReg_writeReg_other s i r v,
    writeReg_regs_zero s i v⟩

/-- Settles O20: the effects that write a register write the destination register. -/
theorem onlyDestinationRegisterChanges : Obligations.OnlyDestinationRegisterChanges := by
  intro i s t r h hr
  cases exec_effect h with
  | register rd v hd | link rd v u hd =>
    have hne : r ≠ rd := fun e => hr (e ▸ hd)
    exact readReg_writeReg_other s rd r v hne
  | fallThrough | taken | store | halted | printed => rfl

/-- Settles O22: the effects with a transfer target set pc to it, halt leaves pc, and the others advance it. -/
theorem nextPcRule : Obligations.NextPcRule := by
  intro i s t h
  cases exec_effect h with
  | register _ _ _ _ _ hh ht | link _ _ _ _ _ _ hh ht | fallThrough _ _ _ hh ht | taken _ _ _ _ hh ht
  | store _ _ _ _ _ _ hh ht => simp [hh, ht]
  | halted hi => simp [hi]
  | printed rs hi => simp [hi, transferTarget]

/-- Settles O24: no effect but halt's touches the flag. -/
theorem onlyHaltSetsTheFlag : Obligations.OnlyHaltSetsTheFlag := by
  intro i s t h
  cases exec_effect h with
  | register _ _ _ _ _ hh | link _ _ _ _ _ _ hh | fallThrough _ _ _ hh | taken _ _ _ _ hh | store _ _ _ _ _ _ hh =>
    simp [hh]
  | halted hi => simp [hi]
  | printed rs hi => simp [hi]

/-- Settles O25: no effect but print's touches the output stream, and the others emit nothing. -/
theorem onlyPrintEmits : Obligations.OnlyPrintEmits := by
  intro i s t h
  cases exec_effect h with
  | register _ _ _ _ he | link _ _ _ _ _ he | fallThrough _ _ he | taken _ _ _ he | store _ _ _ _ _ he => simp [he]
  | halted hi => simp [hi, emitted]
  | printed rs hi => simp [hi, emitted]

/-- `t` has the instruction memory, the DMEM_SIZE and the CUSTOM_OPCODE of `s` (R10, R42, R119). -/
def SameLaunch (s t : State) : Prop :=
  t.imem = s.imem ∧ t.dmemSize = s.dmemSize ∧ t.customOpcode = s.customOpcode

/-- No instruction changes the launch parameters. -/
theorem exec_sameLaunch {i : Instr} {s t : State} (h : exec i s = .next t) : SameLaunch s t := by
  cases exec_effect h <;> simp [SameLaunch]

end Sys2Proof.Machine
end

section
/-! What every step keeps, every run keeps (40_execute_cycle.md R177, R179). -/

namespace Sys2Proof.Machine

/-- A property that every step keeps holds of the final state of every run that begins with it. -/
theorem run_final_induction {P : State → Prop} (hstep : ∀ s t, P s → step s = .next t → P t) (k : Nat) {s : State}
    (hs : P s) : P (run k s).final := by
  induction k generalizing s with
  | zero => exact hs
  | succ k ih =>
    rw [run]
    split
    · exact ih (hstep _ _ hs ‹_›)
    all_goals exact hs

/-- Settles O7: every step keeps the launch parameters of the run's first state. -/
theorem runKeepsInstructionMemory : Obligations.RunKeepsInstructionMemory := by
  intro k s
  refine run_final_induction (P := SameLaunch s) (fun u t ⟨himem, hsize, hcustom⟩ hstep => ?_) k ⟨rfl, rfl, rfl⟩
  obtain ⟨-, w, i, -, -, hexec⟩ := step_next hstep
  obtain ⟨himem', hsize', hcustom'⟩ := exec_sameLaunch hexec
  exact ⟨himem'.trans himem, hsize'.trans hsize, hcustom'.trans hcustom⟩

/-- Settles O8: the output of the run's first state stands at the front of the output after every step. -/
theorem runOnlyAppendsOutput : Obligations.RunOnlyAppendsOutput := by
  intro k s
  have hfront : s.out <+: (run k s).final.out := by
    refine run_final_induction (P := fun u => s.out <+: u.out) (fun u t hu hstep => ?_) k (List.prefix_refl s.out)
    obtain ⟨-, w, i, -, -, hexec⟩ := step_next hstep
    rw [onlyPrintEmits i u t hexec]
    exact hu.trans (List.prefix_append _ _)
  obtain ⟨vs, hvs⟩ := hfront
  exact ⟨vs, hvs.symm⟩

end Sys2Proof.Machine
end

section
/-! The wrap of pc (10_state.md R38). -/

namespace Sys2Proof.Machine

/-- A register to which 0 was written reads 0, x0 or not. -/
theorem readReg_writeReg_zero (s : State) (i : RegIdx) : (s.writeReg i 0#32).readReg i = 0#32 := by
  by_cases hi : i = 0#5
  · rw [hi]; rfl
  · exact readReg_writeReg_same s i _ hi

/-- In a running state that meets the invariant, the flag is clear and pc is below the end of at most 2^30 words. -/
theorem State.Inv.running {s : State} (h : s.Inv) (hrun : s.isHalted = false) :
    s.haltFlag = false ∧ s.pc.toNat < 4 * s.imem.length ∧ s.imem.length ≤ 1073741824 := by
  have hend : ¬ (s.haltFlag = true ∨ 4 * s.imem.length ≤ s.pc.toNat) := by simp [← isHalted_iff, hrun]
  have hlaunch := h.launch
  simp only [launchAllowed, Bool.and_eq_true] at hlaunch
  obtain ⟨⟨hlen, -⟩, -⟩ := hlaunch
  simp only [not_or, Bool.not_eq_true, Nat.not_le] at hend
  exact ⟨hend.1, hend.2, of_decide_eq_true hlen⟩

/-- A state at pc 0 with the flag clear and a word loaded is running, and fetches word 0. -/
theorem running_at_zero {t : State} (hpc : t.pc = 0#32) (hflag : t.haltFlag = false) (hlen : 0 < t.imem.length) :
    t.isHalted = false ∧ t.fetch = t.imem[0]? := by
  have hn : t.imem ≠ [] := List.length_pos_iff.mp hlen
  simp [State.isHalted, State.imemLen, State.fetch, hpc, hflag, hn]

/-- Where pc + 4 wraps to 0, an instruction that completes and neither halts nor transfers control goes on at word 0. -/
theorem exec_continues_at_zero {i : Instr} {s t : State} (hflag : s.haltFlag = false) (hlen : 0 < s.imem.length)
    (hwrap : s.pc + 4#32 = 0#32) (h : exec i s = .next t) (hi : i ≠ .halt) (ht : transferTarget s i = none) :
    t.pc = 0#32 ∧ t.isHalted = false ∧ t.fetch = s.imem[0]? := by
  have hpc : t.pc = 0#32 := by simp [nextPcRule i s t h, hi, ht, hwrap]
  have hflag' : t.haltFlag = false := by simp [onlyHaltSetsTheFlag i s t h, hflag, hi]
  obtain ⟨himem, -, -⟩ := exec_sameLaunch h
  rw [← himem] at hlen ⊢
  exact ⟨hpc, running_at_zero hpc hflag' hlen⟩

/-- Where pc + 4 is 0, a jump that completes has linked 0. -/
theorem jumpTo_links_zero {s t : State} {i : Instr} {u : Word} {rd : RegIdx} (hwrap : s.nextPc = 0#32)
    (h : s.jumpTo i u (s.writeReg rd s.nextPc) = .next t) : t.readReg rd = 0#32 := by
  obtain ⟨-, rfl⟩ := jumpTo_next h
  rw [setPc_readReg, hwrap, readReg_writeReg_zero]

/-- Settles O23: pc is a multiple of 4 below the end of instruction memory, so only the last word of a full one
wraps. -/
theorem pcWrapsOnlyAtTheTop : Obligations.PcWrapsOnlyAtTheTop := by
  intro s hs hrun
  obtain ⟨hflag, hpc, hlen⟩ := hs.running hrun
  have haligned := hs.pcAligned
  refine ⟨fun _ => by omega, fun htop => ?_, fun htop => ?_⟩
  · unfold State.nextPc
    bv_omega
  · have hwrap : s.nextPc = 0#32 := by rw [State.nextPc, htop]; rfl
    have hfull : s.imem.length = 1073741824 := by
      have : s.pc.toNat = 0xFFFFFFFC := by rw [htop]; rfl
      omega
    have hgoesOn (i : Instr) (t : State) := exec_continues_at_zero (i := i) (t := t) hflag (by omega) hwrap
    refine ⟨hfull, hwrap, hgoesOn, fun _ _ _ h => jumpTo_links_zero hwrap h,
      fun _ _ _ _ h => jumpTo_links_zero hwrap h, fun rd rs1 imm => ?_⟩
    obtain ⟨hpc', hrun', -⟩ := hgoesOn (.addi rd rs1 imm) _ rfl (by simp) rfl
    exact ⟨_, rfl, hpc', hrun'⟩

end Sys2Proof.Machine
end

section
/-! What no instruction reads (10_state.md R42, R44): a change of the state that keeps what instructions read and
commutes with every update they make commutes with executing any instruction. -/

open Sys2Proof.Claims

namespace Sys2Proof.Machine

/-- `f` keeps every part of the state that an instruction reads, and commutes with every update one makes. -/
structure UnseenByExec (f : State → State) : Prop where
  pc : ∀ s, (f s).pc = s.pc
  readReg : ∀ s r, (f s).readReg r = s.readReg r
  dmem : ∀ s, (f s).dmem = s.dmem
  checkAccess : ∀ s ea n, (f s).checkAccess ea n = s.checkAccess ea n
  customOpcode : ∀ s, (f s).customOpcode = s.customOpcode
  writeReg : ∀ s r v, (f s).writeReg r v = f (s.writeReg r v)
  setPc : ∀ s t, (f s).setPc t = f (s.setPc t)
  setHalted : ∀ s, (f s).setHalted = f s.setHalted
  emit : ∀ s v, (f s).emit v = f (s.emit v)
  afterStore : ∀ s ea n v, afterStore (f s) ea n v = f (afterStore s ea n v)

section
variable {f : State → State} (hf : UnseenByExec f)
include hf

theorem UnseenByExec.nextPc (s : State) : (f s).nextPc = s.nextPc := by
  rw [State.nextPc, hf.pc, State.nextPc]

theorem UnseenByExec.effAddr (s : State) (rs1 : RegIdx) (imm : BitVec 12) :
    (f s).effAddr rs1 imm = s.effAddr rs1 imm := by
  rw [State.effAddr, hf.readReg, State.effAddr]

theorem UnseenByExec.advancePc (s : State) : (f s).advancePc = f s.advancePc := by
  rw [State.advancePc, hf.nextPc, hf.setPc, State.advancePc]

theorem UnseenByExec.raise (s : State) (k : FaultKind) (i : Instr) : (f s).raise k i = mapNext f (s.raise k i) := by
  simp [State.raise, mapNext, hf.pc, hf.customOpcode]

theorem UnseenByExec.writeReg_advancePc (s : State) (rd : RegIdx) (v : Word) :
    ((f s).writeReg rd v).advancePc = f (s.writeReg rd v).advancePc := by
  rw [hf.writeReg, hf.advancePc]

theorem UnseenByExec.aluReg (s : State) (g : Word → Word → Word) (rd rs1 rs2 : RegIdx) :
    (f s).aluReg g rd rs1 rs2 = mapNext f (s.aluReg g rd rs1 rs2) := by
  rw [State.aluReg, hf.readReg, hf.readReg, hf.writeReg_advancePc]; rfl

theorem UnseenByExec.aluImm (s : State) (g : Word → Word → Word) (rd rs1 : RegIdx) (imm : BitVec 12) :
    (f s).aluImm g rd rs1 imm = mapNext f (s.aluImm g rd rs1 imm) := by
  rw [State.aluImm, hf.readReg, hf.writeReg_advancePc]; rfl

theorem UnseenByExec.aluShift (s : State) (g : Word → Nat → Word) (rd rs1 : RegIdx) (sh : BitVec 5) :
    (f s).aluShift g rd rs1 sh = mapNext f (s.aluShift g rd rs1 sh) := by
  rw [State.aluShift, hf.readReg, hf.writeReg_advancePc]; rfl

theorem UnseenByExec.loadOp (s : State) (i : Instr) (n : Width) (signed : Bool) (rd rs1 : RegIdx) (imm : BitVec 12) :
    (f s).loadOp i n signed rd rs1 imm = mapNext f (s.loadOp i n signed rd rs1 imm) := by
  rw [loadOp_eq, loadOp_eq, hf.effAddr, hf.checkAccess, hf.dmem, hf.writeReg_advancePc]
  cases s.checkAccess (s.effAddr rs1 imm) n with
  | some k => exact hf.raise s k i
  | none => rfl

theorem UnseenByExec.storeOp (s : State) (i : Instr) (n : Width) (rs2 rs1 : RegIdx) (imm : BitVec 12) :
    (f s).storeOp i n rs2 rs1 imm = mapNext f (s.storeOp i n rs2 rs1 imm) := by
  rw [storeOp_eq, storeOp_eq, hf.effAddr, hf.checkAccess, hf.readReg, hf.afterStore]
  cases s.checkAccess (s.effAddr rs1 imm) n with
  | some k => exact hf.raise s k i
  | none => rfl

theorem UnseenByExec.jumpTo (s : State) (i : Instr) (t : Word) (after : State) :
    (f s).jumpTo i t (f after) = mapNext f (s.jumpTo i t after) := by
  unfold State.jumpTo
  split
  · rw [hf.setPc]; rfl
  · exact hf.raise s _ i

theorem UnseenByExec.branchOp (s : State) (i : Instr) (cond : Word → Word → Bool) (rs1 rs2 : RegIdx) (t : BitVec 13) :
    (f s).branchOp i cond rs1 rs2 t = mapNext f (s.branchOp i cond rs1 rs2 t) := by
  rw [branchOp_eq, branchOp_eq, hf.readReg, hf.readReg]
  split
  · exact hf.jumpTo s i _ s
  · rw [hf.advancePc]; rfl

theorem UnseenByExec.jumpTo_link (s : State) (i : Instr) (t : Word) (rd : RegIdx) :
    (f s).jumpTo i t ((f s).writeReg rd (f s).nextPc) = mapNext f (s.jumpTo i t (s.writeReg rd s.nextPc)) := by
  rw [hf.nextPc, hf.writeReg, hf.jumpTo]

/-- Executing an instruction commutes with `f`. -/
theorem UnseenByExec.exec (i : Instr) (s : State) : exec i (f s) = mapNext f (exec i s) := by
  cases i
  case add | sub | sll | slt | sltu | xor | srl | sra | or | and =>
    simp only [Machine.exec, execAdd, execSub, execSll, execSlt, execSltu, execXor, execSrl, execSra, execOr, execAnd,
      hf.aluReg]
  case addi | slti | sltiu | xori | ori | andi =>
    simp only [Machine.exec, execAddi, execSlti, execSltiu, execXori, execOri, execAndi, hf.aluImm]
  case slli | srli | srai => simp only [Machine.exec, execSlli, execSrli, execSrai, hf.aluShift]
  case lui => exact congrArg _ (hf.writeReg_advancePc ..)
  case lb | lh | lw | lbu | lhu => exact hf.loadOp ..
  case sb | sh | sw => exact hf.storeOp ..
  case beq | bne | blt | bge | bltu | bgeu => exact hf.branchOp ..
  case jal => exact hf.jumpTo_link ..
  case jalr => rw [Machine.exec, execJalr, hf.effAddr, hf.jumpTo_link]; rfl
  case halt => exact congrArg _ (hf.setHalted s)
  case print => rw [Machine.exec, execPrint, hf.readReg, hf.emit, hf.advancePc]; rfl

end

/-- Another instruction memory is such a change. -/
theorem unseen_imem (words : List Word) : UnseenByExec (fun s => { s with imem := words }) where
  pc _ := rfl
  readReg _ _ := rfl
  dmem _ := rfl
  checkAccess _ _ _ := rfl
  customOpcode _ := rfl
  writeReg s r v := by unfold State.writeReg; split <;> rfl
  setPc _ _ := rfl
  setHalted _ := rfl
  emit _ _ := rfl
  afterStore _ _ _ _ := rfl

/-- More output in front is such a change: `emit` appends at the other end. -/
theorem unseen_out (earlier : List Word) : UnseenByExec (fun s => { s with out := earlier ++ s.out }) where
  pc _ := rfl
  readReg _ _ := rfl
  dmem _ := rfl
  checkAccess _ _ _ := rfl
  customOpcode _ := rfl
  writeReg s r v := by unfold State.writeReg; split <;> rfl
  setPc _ _ := rfl
  setHalted _ := rfl
  emit s v := by simp [State.emit]
  afterStore _ _ _ _ := rfl

/-- Settles O27: instruction memory is neither read nor written by any shared operation. -/
theorem execIgnoresInstructionMemory : Obligations.ExecIgnoresInstructionMemory := fun i s words =>
  (unseen_imem words).exec i s

/-- Settles O28: the output stream is only appended to, so what stands in front of it is never seen. -/
theorem execIgnoresOutput : Obligations.ExecIgnoresOutput := fun i s earlier =>
  (unseen_out earlier).exec i s

end Sys2Proof.Machine
end

section
/-! Data memory (20_memory.md R60 to R64): what a read and a write do, byte by byte, and what each instruction leaves of
data memory. -/

namespace Sys2Proof.Machine

/-! The two primitives, by the answer of their check. -/

theorem memRead_of_fault {s : State} {ea : Word} {n : Width} {k : FaultKind} (h : s.checkAccess ea n = some k) :
    s.memRead ea n = .error k := by
  rw [State.memRead, h]

theorem memRead_of_pass {s : State} {ea : Word} {n : Width} (h : s.checkAccess ea n = none) :
    s.memRead ea n = .ok (s.dmem.read ea.toNat n) := by
  rw [State.memRead, h]

theorem memWrite_of_fault {s : State} {ea : Word} {n : Width} (v : Word) {k : FaultKind}
    (h : s.checkAccess ea n = some k) : s.memWrite ea n v = .error k := by
  rw [State.memWrite, h]

theorem memWrite_of_pass {s : State} {ea : Word} {n : Width} (v : Word) (h : s.checkAccess ea n = none) :
    s.memWrite ea n v = .ok { s with dmem := s.dmem.write ea.toNat v n } := by
  rw [State.memWrite, h]

/-- A write that succeeds has passed its check and written its bytes. -/
theorem memWrite_ok {s t : State} {ea v : Word} {n : Width} (h : s.memWrite ea n v = .ok t) :
    s.checkAccess ea n = none ∧ t = { s with dmem := s.dmem.write ea.toNat v n } := by
  cases hc : s.checkAccess ea n with
  | some k => rw [memWrite_of_fault v hc] at h; cases h
  | none => rw [memWrite_of_pass v hc] at h; cases h; exact ⟨rfl, rfl⟩

/-! The bytes of a read value (R60). -/

theorem widthBits_eq (n : Width) : widthBits n = 8 * widthBytes n := by
  cases n <;> rfl

/-- Two values of an access width that agree in every byte are equal. -/
theorem eq_of_bytes_eq {n : Width} {x y : BitVec (widthBits n)}
    (h : ∀ k, k < widthBytes n → x.extractLsb' (8 * k) 8 = y.extractLsb' (8 * k) 8) : x = y := by
  ext i hi
  have hbyte := h (i / 8) (by have := widthBits_eq n; omega)
  have hbit := congrArg (·.getLsbD (i % 8)) hbyte
  simpa [BitVec.getLsbD_extractLsb', Nat.mod_lt, Nat.div_add_mod, hi] using hbit

/-- Byte `k` of the value read at `a` is the memory byte at `a + k`. -/
theorem extract_read (m : Memory) (a : Nat) (n : Width) (k : Nat) (h : k < widthBytes n) :
    (m.read a n).extractLsb' (8 * k) 8 = m.readByte (a + k) := by
  cases n <;> simp only [widthBytes] at h
  case byte =>
    obtain rfl : k = 0 := by omega
    exact BitVec.extractLsb'_eq_self
  case half =>
    obtain rfl | rfl : k = 0 ∨ k = 1 := by omega
    · exact BitVec.extractLsb'_append_eq_right
    · exact BitVec.extractLsb'_append_eq_left
  case word =>
    obtain rfl | rfl | rfl | rfl : k = 0 ∨ k = 1 ∨ k = 2 ∨ k = 3 := by omega
    · exact BitVec.extractLsb'_append_eq_right
    · exact (BitVec.extractLsb'_append_eq_of_le (by decide)).trans BitVec.extractLsb'_append_eq_right
    · exact (BitVec.extractLsb'_append_eq_of_le (by decide)).trans <|
        (BitVec.extractLsb'_append_eq_of_le (by decide)).trans BitVec.extractLsb'_append_eq_right
    · exact (BitVec.extractLsb'_append_eq_of_le (by decide)).trans <|
        (BitVec.extractLsb'_append_eq_of_le (by decide)).trans BitVec.extractLsb'_append_eq_left

/-- A read of the width and at the address of the last write gives the low bits of the written value (R60, R61). -/
theorem read_write_same {m : Memory} (a : Nat) (v : Word) (n : Width) (hm : m.wf = true) :
    (m.write a v n).read a n = v.setWidth (widthBits n) := by
  refine eq_of_bytes_eq fun k hk => ?_
  have hlow : 8 * k + 8 ≤ widthBits n := by rw [widthBits_eq]; omega
  rw [extract_read _ _ _ _ hk, readByte_write_inside a v n k hm hk, BitVec.extractLsb'_setWidth_of_le hlow]

/-- Settles O29 by the answers of the check and the bytes of a read value. -/
theorem memReadRule : Obligations.MemReadRule := fun s ea n =>
  ⟨fun hmis => memRead_of_fault (checkAccess_misaligned s ea n hmis),
    fun hal hout => memRead_of_fault (checkAccess_outOfRange s ea n hal hout),
    fun hal hin => ⟨_, memRead_of_pass ((checkAccess_eq_none s ea n).mpr ⟨hal, hin⟩), extract_read s.dmem ea.toNat n⟩⟩

/-- Settles O30 by the answers of the check and the laws of `Memory.write`. -/
theorem memWriteRule : Obligations.MemWriteRule := fun s ea n v hm =>
  ⟨fun hmis => memWrite_of_fault v (checkAccess_misaligned s ea n hmis),
    fun hal hout => memWrite_of_fault v (checkAccess_outOfRange s ea n hal hout),
    fun hal hin => ⟨s.dmem.write ea.toNat v n, memWrite_of_pass v ((checkAccess_eq_none s ea n).mpr ⟨hal, hin⟩),
      write_wf ea.toNat v n hm, fun k hk => readByte_write_inside ea.toNat v n k hm hk,
      fun a ha => readByte_write_outside s.dmem ea.toNat a v n ha⟩⟩

/-- A byte read at `ea + k`, inside the bytes of a write at `ea`, gives `v[8k+7:8k]` (R62). -/
theorem memRead_byte_of_memWrite {s t : State} {ea v a : Word} {n : Width} {k : Nat} (hm : s.dmem.wf = true)
    (h : s.memWrite ea n v = .ok t) (ha : a.toNat = ea.toNat + k) (hk : k < widthBytes n) :
    t.memRead a .byte = .ok (v.extractLsb' (8 * k) 8) := by
  obtain ⟨hc, ht⟩ := memWrite_ok h
  obtain ⟨-, hin⟩ := (checkAccess_eq_none s ea n).mp hc
  have hsize : t.dmemSize = s.dmemSize := by rw [ht]
  have hpass : t.checkAccess a .byte = none :=
    (checkAccess_eq_none t a .byte).mpr ⟨Nat.mod_one _, by simp only [widthBytes]; omega⟩
  rw [memRead_of_pass hpass, ha, ht]
  exact congrArg _ (readByte_write_inside ea.toNat v n k hm hk)

/-- Settles O31: the reads find bytes 0 and 3 of the write; `ea + 3` does not wrap because `ea` is a multiple of 4. -/
theorem byteLoadSeesWordStore : Obligations.ByteLoadSeesWordStore := by
  intro s t ea v hm h
  obtain ⟨hc, -⟩ := memWrite_ok h
  obtain ⟨hal, -⟩ := (checkAccess_eq_none s ea .word).mp hc
  simp only [widthBytes] at hal
  have htop : (ea + 3#32).toNat = ea.toNat + 3 := by bv_omega
  exact ⟨memRead_byte_of_memWrite hm h (k := 0) rfl (by decide),
    memRead_byte_of_memWrite hm h (k := 3) htop (by decide)⟩

/-- Settles O26: only the effect of a store touches data memory, and it writes the bytes of its width. -/
theorem onlyStoresChangeMemory : Obligations.OnlyStoresChangeMemory := by
  intro i s t a h
  cases exec_effect h with
  | register _ _ _ hs | link _ _ _ _ hs | fallThrough _ hs | taken _ _ hs => simp [hs]
  | store ea n v _ hs =>
    refine ⟨fun hn => by simp [hs] at hn, fun ea' n' hs' ha => ?_⟩
    cases hs.symm.trans hs'
    exact readByte_write_outside s.dmem ea.toNat a v n ha
  | halted hi => simp [hi, storeOf]
  | printed rs hi => simp [hi, storeOf]

/-! A load after a store (R71). -/

/-- The zero-extended low `k` bits of a word are its bits under the mask of `k` ones. -/
theorem extendLoaded_setWidth_mask (k : Nat) (v : Word) :
    extendLoaded false (v.setWidth k) = v &&& BitVec.ofNat 32 (2 ^ k - 1) := by
  ext i hi
  simp [extendLoaded, ← BitVec.getLsbD_eq_getElem, BitVec.getLsbD_ofNat, hi, Bool.and_comm]

/-- A load whose access passes its check completes, with the extended value in rd. -/
theorem loadOp_of_pass {s : State} (i : Instr) {n : Width} (signed : Bool) {rd rs1 : RegIdx} {imm : BitVec 12}
    (hrd : rd ≠ 0#5) (hc : s.checkAccess (s.effAddr rs1 imm) n = none) :
    ∃ u, s.loadOp i n signed rd rs1 imm = .next u ∧
      u.readReg rd = extendLoaded signed (s.dmem.read (s.effAddr rs1 imm).toNat n) := by
  rw [loadOp_eq, hc]
  exact ⟨_, rfl, readReg_writeReg_same s rd _ hrd⟩

/-- A load of the width and at the address of a store that completed completes, and extends the low bits of the stored
register into rd. -/
theorem loadOp_after_storeOp {s t : State} {i : Instr} {n : Width} {rs2 rs1 rd : RegIdx} {imm : BitVec 12} (j : Instr)
    (signed : Bool) (hm : s.dmem.wf = true) (hrd : rd ≠ 0#5) (h : s.storeOp i n rs2 rs1 imm = .next t) :
    ∃ u, t.loadOp j n signed rd rs1 imm = .next u ∧
      u.readReg rd = extendLoaded signed ((s.readReg rs2).setWidth (widthBits n)) := by
  obtain ⟨hc, rfl⟩ := storeOp_next h
  rw [← read_write_same (s.effAddr rs1 imm).toNat (s.readReg rs2) n hm]
  exact loadOp_of_pass j signed hrd hc

/-- Settles O32: the three pairs are one fact at three widths, with the extension of each load. -/
theorem loadReturnsLastStore : Obligations.LoadReturnsLastStore := by
  intro s t rs2 rs1 rd imm hm hrd
  refine ⟨fun h => ?_, fun h => ?_, fun h => ?_⟩
  · obtain ⟨u, hu, hv⟩ := loadOp_after_storeOp (.lw rd rs1 imm) true hm hrd h
    exact ⟨u, hu, hv.trans (by simp [extendLoaded])⟩
  · obtain ⟨u, hu, hv⟩ := loadOp_after_storeOp (.lhu rd rs1 imm) false hm hrd h
    exact ⟨u, hu, hv.trans (extendLoaded_setWidth_mask 16 _)⟩
  · obtain ⟨u, hu, hv⟩ := loadOp_after_storeOp (.lbu rd rs1 imm) false hm hrd h
    exact ⟨u, hu, hv.trans (extendLoaded_setWidth_mask 8 _)⟩

end Sys2Proof.Machine
end

section
/-! The decoder by opcode (30_encoding.md R116, R118, R119): which of the per-opcode decoders answers for a word, and that
it reads an encoded word back (R154). -/

namespace Sys2Proof

/-! Which decoder answers. CUSTOM_OPCODE's is asked first; a legal one is none of the major opcodes. -/

/-- A legal CUSTOM_OPCODE is none of the eight major opcodes (R119). -/
theorem major_ne_custom {custom op : Opcode} (hv : validCustomOpcode custom = true) (hop : op ∈ majorOpcodes) :
    op ≠ custom := by
  rintro rfl
  simp [validCustomOpcode, hop] at hv

section
variable {custom : Opcode} {w : Word}

theorem decode_custom (h : opcodeOf w = custom) : decode custom w = decodeCustom w := if_pos h

/-- A word of no major opcode and not of CUSTOM_OPCODE is unsupported (R118, D8). -/
theorem decode_of_not_major (hc : opcodeOf w ≠ custom) (h : opcodeOf w ∉ majorOpcodes) :
    decode custom w = .error .unsupportedOpcode := by
  simp only [majorOpcodes, List.mem_cons, List.not_mem_nil, or_false, not_or] at h
  simp only [decode, hc, h, if_false]

variable (hv : validCustomOpcode custom = true)
include hv

theorem opcodeOf_ne_custom {op : Opcode} (hop : op ∈ majorOpcodes) (h : opcodeOf w = op) : opcodeOf w ≠ custom :=
  h ▸ major_ne_custom hv hop

theorem decode_op (h : opcodeOf w = opOp) : decode custom w = decodeOp w :=
  (if_neg (opcodeOf_ne_custom hv (by decide) h)).trans (by rw [h]; rfl)

theorem decode_opImm (h : opcodeOf w = opOpImm) : decode custom w = decodeOpImm w :=
  (if_neg (opcodeOf_ne_custom hv (by decide) h)).trans (by rw [h]; rfl)

theorem decode_load (h : opcodeOf w = opLoad) : decode custom w = decodeLoad w :=
  (if_neg (opcodeOf_ne_custom hv (by decide) h)).trans (by rw [h]; rfl)

theorem decode_store (h : opcodeOf w = opStore) : decode custom w = decodeStore w :=
  (if_neg (opcodeOf_ne_custom hv (by decide) h)).trans (by rw [h]; rfl)

theorem decode_branch (h : opcodeOf w = opBranch) : decode custom w = decodeBranch w :=
  (if_neg (opcodeOf_ne_custom hv (by decide) h)).trans (by rw [h]; rfl)

theorem decode_jal (h : opcodeOf w = opJal) : decode custom w = .ok (.jal (rdOf w) (immJOf w)) :=
  (if_neg (opcodeOf_ne_custom hv (by decide) h)).trans (by rw [h]; rfl)

theorem decode_jalr (h : opcodeOf w = opJalr) :
    decode custom w =
      if funct3Of w = 0b000#3 then .ok (.jalr (rdOf w) (rs1Of w) (immIOf w)) else .error .unsupportedOpcode :=
  (if_neg (opcodeOf_ne_custom hv (by decide) h)).trans (by rw [h]; rfl)

theorem decode_lui (h : opcodeOf w = opLui) : decode custom w = .ok (.lui (rdOf w) (immUOf w)) :=
  (if_neg (opcodeOf_ne_custom hv (by decide) h)).trans (by rw [h]; rfl)

end

/-! Decoding an encoded word (R154). -/

/-- The decoder reads an even branch target back (R105). -/
theorem immBOf_encodeB_of_even {t : BitVec 13} (ht : t.getLsbD 0 = false) (rs2 rs1 : RegIdx) (f3 : BitVec 3) :
    immBOf (encodeB t rs2 rs1 f3) = t := (immBOf_encodeB ..).trans (append_zero_of_even t ht)

/-- The decoder reads an even jal target back (R106). -/
theorem immJOf_encodeJ_of_even {t : BitVec 21} (ht : t.getLsbD 0 = false) (rd : RegIdx) : immJOf (encodeJ t rd) = t :=
  (immJOf_encodeJ ..).trans (append_zero_of_even t ht)

/-- An instruction's word carries its major opcode (R101, R116). -/
theorem opcodeOf_encode (custom : Opcode) (i : Instr) : opcodeOf (encode custom i) = i.majorOpcode custom := by
  cases i
  case add | sub | sll | slt | sltu | xor | srl | sra | or | and | slli | srli | srai => exact opcodeOf_encodeR ..
  case sb | sh | sw => exact opcodeOf_encodeS ..
  case beq | bne | blt | bge | bltu | bgeu => exact opcodeOf_encodeB ..
  case jal => exact opcodeOf_encodeJ ..
  case lui => exact opcodeOf_encodeU ..
  case halt | print => exact opcodeOf_encodeCustom ..
  all_goals exact opcodeOf_encodeI ..

/-- The decoder of the instruction's opcode finds the encoded funct3 and funct7, which select the instruction, and the
encoded operands. -/
theorem decode_encode {custom : Opcode} {i : Instr} (hv : validCustomOpcode custom = true) (hwf : i.wf = true) :
    decode custom (encode custom i) = .ok i := by
  have hop := opcodeOf_encode custom i
  cases i
  case add | sub | sll | slt | sltu | xor | srl | sra | or | and =>
    rw [decode_op hv hop]
    simp [decodeOp, encode, funct7Of_encodeR, funct3Of_encodeR, rdOf_encodeR, rs1Of_encodeR, rs2Of_encodeR]
  case addi | slti | sltiu | xori | ori | andi =>
    rw [decode_opImm hv hop]
    simp [decodeOpImm, encode, funct3Of_encodeI, rdOf_encodeI, rs1Of_encodeI, immIOf_encodeI]
  case slli | srli | srai =>
    rw [decode_opImm hv hop]
    simp [decodeOpImm, encode, funct7Of_encodeR, funct3Of_encodeR, rdOf_encodeR, rs1Of_encodeR, shamtOf_encodeR]
  case lb | lh | lw | lbu | lhu =>
    rw [decode_load hv hop]
    simp [decodeLoad, encode, funct3Of_encodeI, rdOf_encodeI, rs1Of_encodeI, immIOf_encodeI]
  case sb | sh | sw =>
    rw [decode_store hv hop]
    simp [decodeStore, encode, funct3Of_encodeS, rs1Of_encodeS, rs2Of_encodeS, immSOf_encodeS]
  case beq t | bne t | blt t | bge t | bltu t | bgeu t =>
    have ht : t.getLsbD 0 = false := by simpa [Instr.wf] using hwf
    rw [decode_branch hv hop]
    simp [decodeBranch, encode, funct3Of_encodeB, rs1Of_encodeB, rs2Of_encodeB, immBOf_encodeB_of_even ht]
  case jal t =>
    have ht : t.getLsbD 0 = false := by simpa [Instr.wf] using hwf
    rw [decode_jal hv hop]
    simp [encode, rdOf_encodeJ, immJOf_encodeJ_of_even ht]
  case jalr =>
    rw [decode_jalr hv hop]
    simp [encode, funct3Of_encodeI, rdOf_encodeI, rs1Of_encodeI, immIOf_encodeI]
  case lui =>
    rw [decode_lui hv hop]
    simp [encode, rdOf_encodeU, immUOf_encodeU]
  case halt | print =>
    rw [decode_custom (custom := custom) hop]
    simp [decodeCustom, encode, funct3Of_encodeCustom, rdOf_encodeCustom, reserved_encodeCustom]

/-- Settles O44: each opcode's decoder reads the fields back that the encoder placed. -/
theorem decodeOfEncode : Obligations.DecodeOfEncode := fun _ _ hv hwf => decode_encode hv hwf

/-! What decodes is well-formed: the only targets the decoder makes end in the zero bit that it appends (R105, R106). -/

@[simp] theorem immBOf_bit_zero (w : Word) : (immBOf w)[0] = false := immBOf_even w
@[simp] theorem immJOf_bit_zero (w : Word) : (immJOf w)[0] = false := immJOf_even w

theorem wf_of_decodeBranch {w : Word} {i : Instr} (h : decodeBranch w = .ok i) : i.wf = true := by
  unfold decodeBranch at h
  split_ifs at h <;> cases h
  all_goals simp [Instr.wf]

theorem decodeCustom_ok {w : Word} {i : Instr} (h : decodeCustom w = .ok i) : i = .halt ∨ ∃ r, i = .print r := by
  unfold decodeCustom at h
  split_ifs at h <;> cases h
  · exact .inl rfl
  · exact .inr ⟨_, rfl⟩

/-- An instruction of an opcode other than BRANCH and JAL has no target that could be odd. -/
theorem wf_of_majorOpcode {custom : Opcode} {i : Instr} (h : i.majorOpcode custom ∉ [opBranch, opJal]) :
    i.wf = true := by
  cases i
  case beq | bne | blt | bge | bltu | bgeu | jal => exact absurd h (by simp [Instr.majorOpcode])
  all_goals rfl

theorem wf_of_decode {custom : Opcode} {w : Word} {i : Instr} (h : decode custom w = .ok i) : i.wf = true := by
  have hmajor : i.majorOpcode custom = opcodeOf w := by rw [← opcodeOf_encode, encode_of_decode h]
  unfold decode at h
  split_ifs at h with hc hop hopImm hload hstore hbranch hjal
  · obtain rfl | ⟨r, rfl⟩ := decodeCustom_ok h <;> rfl
  iterate 4 · exact wf_of_majorOpcode (by rw [hmajor, ‹opcodeOf w = _›]; decide)
  · exact wf_of_decodeBranch h
  · cases h; simp [Instr.wf]
  iterate 2 · exact wf_of_majorOpcode (by rw [hmajor, ‹opcodeOf w = _›]; decide)

/-- Settles O45: the decoder makes even targets only, and drops no bit. -/
theorem encodeOfDecode : Obligations.EncodeOfDecode := fun _ _ _ h => ⟨wf_of_decode h, encode_of_decode h⟩

end Sys2Proof
end

section
/-! The classes of words that the spec describes by their fields (30_encoding.md R108, R117, R118, R120). -/

namespace Sys2Proof

/-! CUSTOM_OPCODE words (R108). -/

theorem decodeCustom_halt_iff {w : Word} :
    decodeCustom w = .ok .halt ↔ w.extractLsb' 15 17 = 0#17 ∧ funct3Of w = 0#3 ∧ rdOf w = 0#5 := by
  unfold decodeCustom
  split_ifs <;> simp_all

theorem decodeCustom_print_iff {w : Word} {r : RegIdx} :
    decodeCustom w = .ok (.print r) ↔ w.extractLsb' 15 17 = 0#17 ∧ funct3Of w = 1#3 ∧ rdOf w = r := by
  unfold decodeCustom
  split_ifs <;> simp_all

theorem decodeCustom_error {w : Word} {k : DecodeFault} (h : decodeCustom w = .error k) : k = .unsupportedCustomOp := by
  unfold decodeCustom at h
  split_ifs at h <;> cases h <;> rfl

/-- Settles O49: words of CUSTOM_OPCODE are the custom decoder's. -/
theorem customClassDecodes : Obligations.CustomClassDecodes := by
  intro custom w hop
  rw [decode_custom hop]
  exact ⟨decodeCustom_halt_iff, fun r => decodeCustom_print_iff, fun i => decodeCustom_ok, fun k => decodeCustom_error⟩

/-! Illegal words (R120). -/

/-- Every major opcode has the low bits 11 (R116). -/
theorem low_bits_of_major {w : Word} (h : opcodeOf w ∈ majorOpcodes) : w.extractLsb' 0 2 = 0b11#2 := by
  have all_low_bits : ∀ op ∈ majorOpcodes, op.extractLsb' 0 2 = 0b11#2 := by decide
  have low_of_opcode : (opcodeOf w).extractLsb' 0 2 = w.extractLsb' 0 2 :=
    BitVec.extractLsb'_extractLsb'_of_le (by decide)
  exact low_of_opcode ▸ all_low_bits _ h

/-- Settles O50: each class fails a test of its opcode's decoder, or has no major opcode. -/
theorem illegalWordsDoNotDecode : Obligations.IllegalWordsDoNotDecode := by
  intro custom w hv
  rw [← opcodeOf, ← funct3Of, ← funct7Of]
  intro hc
  refine ⟨fun h => ?_, fun h h7 => ?_, fun h h7 h3 => ?_, fun h h3 h7 => ?_, fun h h3 h7 => ?_, fun h h3 => ?_,
    fun h h3 => ?_, fun h h3 => ?_, fun h h3 => ?_, decode_of_not_major hc,
    fun h => decode_of_not_major hc fun hm => h (low_bits_of_major hm)⟩
  · have none_major : ∀ op ∈ [0b0010111#7, 0b0001111#7, 0b1110011#7], op ∉ majorOpcodes := by decide
    exact decode_of_not_major hc (none_major _ h)
  · simp only [List.mem_cons, List.not_mem_nil, or_false, not_or] at h7
    simp [decode_op hv h, decodeOp, h7]
  · simp only [List.mem_cons, List.not_mem_nil, or_false, not_or] at h3
    simp [decode_op hv h, decodeOp, h7, h3]
  · simp [decode_opImm hv h, decodeOpImm, h3, h7]
  · simp only [List.mem_cons, List.not_mem_nil, or_false, not_or] at h7
    simp [decode_opImm hv h, decodeOpImm, h3, h7]
  · simp only [List.mem_cons, List.not_mem_nil, or_false] at h3
    obtain h3 | h3 | h3 := h3 <;> simp [decode_load hv h, decodeLoad, h3]
  · simp only [List.mem_cons, List.not_mem_nil, or_false] at h3
    obtain h3 | h3 | h3 | h3 | h3 := h3 <;> simp [decode_store hv h, decodeStore, h3]
  · simp only [List.mem_cons, List.not_mem_nil, or_false] at h3
    obtain h3 | h3 := h3 <;> simp [decode_branch hv h, decodeBranch, h3]
  · simp [decode_jalr hv h, h3]

/-! The rows of the opcode table (R117). -/

/-- Settles O47 by computing the difference of each pair of rows. -/
theorem opcodeTableRowsDisjoint : Obligations.OpcodeTableRowsDisjoint := by
  unfold Obligations.OpcodeTableRowsDisjoint
  decide

section
variable {w mask : Word}

/-- A field that a mask selects whole is the word's own. -/
theorem field_of_selected (start len : Nat) (h : mask.extractLsb' start len = BitVec.allOnes len) :
    (w &&& mask).extractLsb' start len = w.extractLsb' start len := by
  rw [BitVec.extractLsb'_and, h, BitVec.and_allOnes]

/-- A field of which a mask selects nothing is 0. -/
theorem field_of_cleared (start len : Nat) (h : mask.extractLsb' start len = 0#len) :
    (w &&& mask).extractLsb' start len = 0#len := by
  rw [BitVec.extractLsb'_and, h, BitVec.and_zero]

/-- A field that a mask selects whole is that of the match word. -/
theorem field_of_match {m : Word} (h : w &&& mask = m) (start len : Nat)
    (hsel : mask.extractLsb' start len = BitVec.allOnes len) : w.extractLsb' start len = m.extractLsb' start len :=
  h ▸ (field_of_selected start len hsel).symm

end

/-! What each of the table's masks leaves of a word; halt's mask is all ones. -/

theorem and_mask_funct7_funct3_opcode (w : Word) :
    w &&& 0xFE00707F#32 = encodeR (funct7Of w) 0#5 0#5 (funct3Of w) 0#5 (opcodeOf w) :=
  word_ext_R ((field_of_selected 25 7 rfl).trans (funct7Of_encodeR ..).symm)
    ((field_of_cleared 20 5 rfl).trans (rs2Of_encodeR ..).symm) ((field_of_cleared 15 5 rfl).trans (rs1Of_encodeR ..).symm)
    ((field_of_selected 12 3 rfl).trans (funct3Of_encodeR ..).symm) ((field_of_cleared 7 5 rfl).trans (rdOf_encodeR ..).symm)
    ((field_of_selected 0 7 rfl).trans (opcodeOf_encodeR ..).symm)

theorem and_mask_funct3_opcode (w : Word) : w &&& 0x0000707F#32 = encodeI 0#12 0#5 (funct3Of w) 0#5 (opcodeOf w) :=
  word_ext_I ((field_of_cleared 20 12 rfl).trans (immIOf_encodeI ..).symm)
    ((field_of_cleared 15 5 rfl).trans (rs1Of_encodeI ..).symm) ((field_of_selected 12 3 rfl).trans (funct3Of_encodeI ..).symm)
    ((field_of_cleared 7 5 rfl).trans (rdOf_encodeI ..).symm) ((field_of_selected 0 7 rfl).trans (opcodeOf_encodeI ..).symm)

theorem and_mask_opcode (w : Word) : w &&& 0x0000007F#32 = encodeI 0#12 0#5 0#3 0#5 (opcodeOf w) :=
  word_ext_I ((field_of_cleared 20 12 rfl).trans (immIOf_encodeI ..).symm)
    ((field_of_cleared 15 5 rfl).trans (rs1Of_encodeI ..).symm) ((field_of_cleared 12 3 rfl).trans (funct3Of_encodeI ..).symm)
    ((field_of_cleared 7 5 rfl).trans (rdOf_encodeI ..).symm) ((field_of_selected 0 7 rfl).trans (opcodeOf_encodeI ..).symm)

theorem encodeCustom_and_mask (f3 : BitVec 3) (rd : RegIdx) (custom : Opcode) :
    encodeCustom f3 rd custom &&& 0xFFFFF07F#32 = encodeCustom f3 0#5 custom :=
  word_ext_custom ((field_of_selected 15 17 rfl).trans ((reserved_encodeCustom ..).trans (reserved_encodeCustom ..).symm))
    ((field_of_selected 12 3 rfl).trans ((funct3Of_encodeCustom ..).trans (funct3Of_encodeCustom ..).symm))
    ((field_of_cleared 7 5 rfl).trans (rdOf_encodeCustom ..).symm)
    ((field_of_selected 0 7 rfl).trans ((opcodeOf_encodeCustom ..).trans (opcodeOf_encodeCustom ..).symm))

/-- An instruction's word matches the instruction's row. -/
theorem encode_matches_tableRow (i : Instr) : encode defaultCustomOpcode i &&& i.tableRow.2 = i.tableRow.1 := by
  cases i
  case add | sub | sll | slt | sltu | xor | srl | sra | or | and | slli | srli | srai =>
    simp only [encode, Instr.tableRow, and_mask_funct7_funct3_opcode, funct7Of_encodeR, funct3Of_encodeR, opcodeOf_encodeR]
    rfl
  case sb | sh | sw =>
    simp only [encode, Instr.tableRow, and_mask_funct3_opcode, funct3Of_encodeS, opcodeOf_encodeS]
    rfl
  case beq | bne | blt | bge | bltu | bgeu =>
    simp only [encode, Instr.tableRow, and_mask_funct3_opcode, funct3Of_encodeB, opcodeOf_encodeB]
    rfl
  case jal =>
    simp only [encode, Instr.tableRow, and_mask_opcode, opcodeOf_encodeJ]
    rfl
  case lui =>
    simp only [encode, Instr.tableRow, and_mask_opcode, opcodeOf_encodeU]
    rfl
  case halt => rfl
  case print => exact encodeCustom_and_mask ..
  all_goals
    simp only [encode, Instr.tableRow, and_mask_funct3_opcode, funct3Of_encodeI, opcodeOf_encodeI]
    rfl

theorem tableRow_mem (i : Instr) : i.tableRow ∈ tableRows := by
  cases i <;> simp [Instr.tableRow, tableRows]

/-! A word that matches a row decodes to an instruction of the row, mask by mask: the fields that the mask selects are the
match word's, and they are all that the decoder branches on. -/

section
variable {w m : Word}

theorem decodes_of_match_funct7_funct3_opcode (hm : (m, 0xFE00707F#32) ∈ tableRows) (h : w &&& 0xFE00707F#32 = m) :
    ∃ i, decode defaultCustomOpcode w = .ok i ∧ i.tableRow = (m, 0xFE00707F#32) := by
  have hf7 : funct7Of w = funct7Of m := field_of_match h 25 7 rfl
  have hf3 : funct3Of w = funct3Of m := field_of_match h 12 3 rfl
  have hop : opcodeOf w = opcodeOf m := field_of_match h 0 7 rfl
  simp only [decode, decodeOp, decodeOpImm, hop, hf3, hf7]
  simp only [tableRows, List.cons_append, List.nil_append, List.mem_cons, Prod.mk.injEq, BitVec.reduceEq, and_true,
    and_false, List.not_mem_nil, or_self, or_false, false_or] at hm
  rcases hm with rfl | rfl | rfl | rfl | rfl | rfl | rfl | rfl | rfl | rfl | rfl | rfl | rfl
  all_goals exact ⟨_, rfl, rfl⟩

theorem decodes_of_match_funct3_opcode (hm : (m, 0x0000707F#32) ∈ tableRows) (h : w &&& 0x0000707F#32 = m) :
    ∃ i, decode defaultCustomOpcode w = .ok i ∧ i.tableRow = (m, 0x0000707F#32) := by
  have hf3 : funct3Of w = funct3Of m := field_of_match h 12 3 rfl
  have hop : opcodeOf w = opcodeOf m := field_of_match h 0 7 rfl
  simp only [decode, decodeOpImm, decodeLoad, decodeStore, decodeBranch, hop, hf3]
  simp only [tableRows, List.cons_append, List.nil_append, List.mem_cons, Prod.mk.injEq, BitVec.reduceEq, and_true,
    and_false, List.not_mem_nil, or_self, or_false, false_or] at hm
  rcases hm with rfl | rfl | rfl | rfl | rfl | rfl | rfl | rfl | rfl | rfl | rfl | rfl | rfl | rfl | rfl | rfl | rfl |
    rfl | rfl | rfl | rfl
  all_goals exact ⟨_, rfl, rfl⟩

theorem decodes_of_match_opcode (hm : (m, 0x0000007F#32) ∈ tableRows) (h : w &&& 0x0000007F#32 = m) :
    ∃ i, decode defaultCustomOpcode w = .ok i ∧ i.tableRow = (m, 0x0000007F#32) := by
  have hop : opcodeOf w = opcodeOf m := field_of_match h 0 7 rfl
  simp only [decode, hop]
  simp only [tableRows, List.cons_append, List.nil_append, List.mem_cons, Prod.mk.injEq, BitVec.reduceEq, and_true,
    and_false, List.not_mem_nil, or_self, or_false, false_or] at hm
  rcases hm with rfl | rfl
  all_goals exact ⟨_, rfl, rfl⟩

theorem decodes_of_match_print (h : w &&& 0xFFFFF07F#32 = 0x0000100B#32) :
    decode defaultCustomOpcode w = .ok (.print (rdOf w)) :=
  (decode_custom (field_of_match h 0 7 rfl)).trans
    (decodeCustom_print_iff.2 ⟨field_of_match h 15 17 rfl, field_of_match h 12 3 rfl, rfl⟩)

end

/-- Settles O46: a word that decodes is its instruction's word, which matches the row; and each of the table's five masks
selects what its rows' opcodes are decoded by. -/
theorem decodeMatchesOpcodeTable : Obligations.DecodeMatchesOpcodeTable := by
  refine ⟨fun w i h => ⟨tableRow_mem i, ?_⟩, fun w ⟨m, mask⟩ hrow h => ?_⟩
  · rw [← encode_of_decode h]
    exact encode_matches_tableRow i
  · have masks : ∀ row ∈ tableRows, row.2 = 0xFE00707F#32 ∨ row.2 = 0x0000707F#32 ∨ row.2 = 0x0000007F#32 ∨
        row = (0x0000000B#32, 0xFFFFFFFF#32) ∨ row = (0x0000100B#32, 0xFFFFF07F#32) := by simp [tableRows]
    obtain rfl | rfl | rfl | h' | h' := masks _ hrow
    · exact decodes_of_match_funct7_funct3_opcode hrow h
    · exact decodes_of_match_funct3_opcode hrow h
    · exact decodes_of_match_opcode hrow h
    · cases h'
      obtain rfl : w = 0x0000000B#32 := BitVec.and_allOnes.symm.trans h
      exact ⟨.halt, rfl, rfl⟩
    · cases h'
      exact ⟨_, decodes_of_match_print h, rfl⟩

/-- Settles O48 by running the decoder on the twelve words. -/
theorem exampleWordsDecode : Obligations.ExampleWordsDecode := by
  unfold Obligations.ExampleWordsDecode
  decide

/-! Where the bits of a target stand (R105, R106). -/

/-- The bits of a branch target above bit 0, in the order of the word's pieces. -/
theorem branchTarget_pieces (t : BitVec 13) :
    t.extractLsb' 1 12 = t.extractLsb' 12 1 ++ t.extractLsb' 11 1 ++ t.extractLsb' 5 6 ++ t.extractLsb' 1 4 := by
  have h11 : t.extractLsb' 12 1 ++ t.extractLsb' 11 1 = t.extractLsb' 11 2 :=
    BitVec.extractLsb'_append_extractLsb'_eq_extractLsb' rfl
  have h5 : t.extractLsb' 11 2 ++ t.extractLsb' 5 6 = t.extractLsb' 5 8 :=
    BitVec.extractLsb'_append_extractLsb'_eq_extractLsb' rfl
  have h1 : t.extractLsb' 5 8 ++ t.extractLsb' 1 4 = t.extractLsb' 1 12 :=
    BitVec.extractLsb'_append_extractLsb'_eq_extractLsb' rfl
  rw [h11, h5, h1]

/-- The bits of a jal target above bit 0, in the order of the word's pieces. -/
theorem jalTarget_pieces (t : BitVec 21) :
    t.extractLsb' 1 20 = t.extractLsb' 20 1 ++ t.extractLsb' 12 8 ++ t.extractLsb' 11 1 ++ t.extractLsb' 1 10 := by
  have h12 : t.extractLsb' 20 1 ++ t.extractLsb' 12 8 = t.extractLsb' 12 9 :=
    BitVec.extractLsb'_append_extractLsb'_eq_extractLsb' rfl
  have h11 : t.extractLsb' 12 9 ++ t.extractLsb' 11 1 = t.extractLsb' 11 10 :=
    BitVec.extractLsb'_append_extractLsb'_eq_extractLsb' rfl
  have h1 : t.extractLsb' 11 10 ++ t.extractLsb' 1 10 = t.extractLsb' 1 20 :=
    BitVec.extractLsb'_append_extractLsb'_eq_extractLsb' rfl
  rw [h12, h11, h1]

theorem encodeB_target_bits (t : BitVec 13) (rs2 rs1 : RegIdx) (f3 : BitVec 3) :
    (encodeB t rs2 rs1 f3).extractLsb' 31 1 = t.extractLsb' 12 1 ∧
    (encodeB t rs2 rs1 f3).extractLsb' 25 6 = t.extractLsb' 5 6 ∧
    (encodeB t rs2 rs1 f3).extractLsb' 8 4 = t.extractLsb' 1 4 ∧
    (encodeB t rs2 rs1 f3).extractLsb' 7 1 = t.extractLsb' 11 1 := by
  have himm := immBOf_encodeB t rs2 rs1 f3
  rw [branchTarget_pieces] at himm
  obtain ⟨himm, -⟩ := append_parts_eq himm
  obtain ⟨himm, h8⟩ := append_parts_eq himm
  obtain ⟨himm, h25⟩ := append_parts_eq himm
  obtain ⟨h31, h7⟩ := append_parts_eq himm
  exact ⟨h31, h25, h8, h7⟩

theorem encodeJ_target_bits (t : BitVec 21) (rd : RegIdx) :
    (encodeJ t rd).extractLsb' 31 1 = t.extractLsb' 20 1 ∧ (encodeJ t rd).extractLsb' 21 10 = t.extractLsb' 1 10 ∧
    (encodeJ t rd).extractLsb' 20 1 = t.extractLsb' 11 1 ∧ (encodeJ t rd).extractLsb' 12 8 = t.extractLsb' 12 8 := by
  have himm := immJOf_encodeJ t rd
  rw [jalTarget_pieces] at himm
  obtain ⟨himm, -⟩ := append_parts_eq himm
  obtain ⟨himm, h21⟩ := append_parts_eq himm
  obtain ⟨himm, h20⟩ := append_parts_eq himm
  obtain ⟨h31, h12⟩ := append_parts_eq himm
  exact ⟨h31, h21, h20, h12⟩

/-- Settles O51: the pieces that the decoder puts together are those of the target. -/
theorem targetBitPlacement : Obligations.TargetBitPlacement := by
  intro custom rs1 rs2 rd t j i hi
  have hword : ∃ f3, encode custom i = encodeB t rs2 rs1 f3 := by
    simp only [List.mem_cons, List.not_mem_nil, or_false] at hi
    obtain rfl | rfl | rfl | rfl | rfl | rfl := hi
    all_goals exact ⟨_, rfl⟩
  obtain ⟨f3, hword⟩ := hword
  obtain ⟨h31, h25, h8, h7⟩ := encodeB_target_bits t rs2 rs1 f3
  obtain ⟨j31, j21, j20, j12⟩ := encodeJ_target_bits j rd
  rw [hword]
  exact ⟨⟨h31, h25, rs2Of_encodeB .., rs1Of_encodeB .., h8, h7⟩, j31, j21, j20, j12, rdOf_encodeJ ..⟩

end Sys2Proof
end

section
/-! Writes to x0 (30_encoding.md R121). -/

namespace Sys2Proof.Machine

/-- Advancing pc changes nothing else. -/
theorem advancePc_onlyPc (s : State) : OnlyPc s s.advancePc (s.pc + 4#32) :=
  ⟨rfl, fun _ => rfl, ⟨fun _ => rfl, rfl, rfl, rfl, rfl, rfl⟩⟩

/-- Settles O21: no register but rd changes, and x0 reads as 0; `addi x0, x0, 0` writes x0 and advances pc. -/
theorem writeToX0Discarded : Obligations.WriteToX0Discarded := by
  refine ⟨fun i s t r hd h => ?_, fun s => ⟨s.advancePc, rfl, advancePc_onlyPc s⟩⟩
  by_cases hr : r = 0#5
  · rw [hr, readReg_zero, readReg_zero]
  · have hdest : destReg i ≠ some r := fun e => hr (Option.some.inj (e.symm.trans hd))
    exact onlyDestinationRegisterChanges i s t r h hdest

end Sys2Proof.Machine
end

section
/-! Register names, operands and the lines of each mnemonic (30_encoding.md R130, R135 to R140). -/

open Sys2Proof.Claims

namespace Sys2Proof.Machine

/-! Register names (R33, R130). -/

/-- The model's table is the one that the statements write out. -/
theorem registerNames_eq : registerNames = registerNamePairs.map fun p => (p.1.toList, BitVec.ofNat 5 p.2) := rfl

/-- Settles O52: a written-out name is found at its index, and another string is not in the table. -/
theorem registerNamesResolve : Obligations.RegisterNamesResolve := by
  refine ⟨by decide, fun name h => ?_⟩
  have absent : lookupName name registerNames = none := by
    refine lookupName_eq_none name registerNames fun q hq => ?_
    rw [registerNames_eq] at hq
    obtain ⟨p, hp, rfl⟩ := List.mem_map.1 hq
    exact h p hp
  rw [resolveReg, absent]

/-- No register name ends in a comma. -/
theorem no_comma_of_resolveReg {c : List Char} {x : RegIdx} (h : resolveReg c = .ok x) : c.getLast? ≠ some ',' := by
  have no_comma : ∀ q ∈ registerNames, q.1.getLast? ≠ some ',' := by decide
  unfold resolveReg at h
  split at h
  · rename_i hl
    exact no_comma _ (lookupName_mem hl)
  · cases h

/-! Integer literals (R137). -/

/-- A literal is digits, or a minus sign and digits, at least one of them. -/
theorem intLiteral_some {c : List Char} {v : Int} (h : intLiteral c = some v) :
    ∃ ds, (c = ds ∨ c = '-' :: ds) ∧ ds ≠ [] ∧ ds.all isDigitChar = true := by
  unfold intLiteral at h
  split at h <;> split_ifs at h with hd <;> cases h
  · exact ⟨_, .inr rfl, hd⟩
  · exact ⟨_, .inl rfl, hd⟩

/-- No literal ends in a comma: its last character is a digit. -/
theorem no_comma_of_intLiteral {c : List Char} {v : Int} (h : intLiteral c = some v) : c.getLast? ≠ some ',' := by
  obtain ⟨ds, hc, hne, hall⟩ := intLiteral_some h
  have hlast : c.getLast? = some (ds.getLast hne) := by
    obtain rfl | rfl := hc
    · exact List.getLast?_eq_some_getLast hne
    · exact (List.getLast?_cons_of_ne_nil hne).trans (List.getLast?_eq_some_getLast hne)
  intro hcomma
  have hdigit := List.all_eq_true.1 hall _ (List.getLast_mem hne)
  rw [Option.some.inj (hlast.symm.trans hcomma)] at hdigit
  exact absurd hdigit (by decide)

/-! Tokens (R136). -/

/-- A token that is not the last one spells the operand left when one comma is taken off. -/
theorem spells_iff {a tok : List Char} : Spells a tok ↔ stripComma tok = a := by
  unfold Spells stripComma
  constructor
  · rintro (rfl | ⟨rfl, h⟩)
    · simp
    · rw [if_neg h]
  · split
    · rename_i h
      rintro rfl
      exact .inl (List.dropLast_append_getLast? _ h).symm
    · rename_i h
      rintro rfl
      exact .inr ⟨rfl, h⟩

theorem namesReg_iff {tok : List Char} {x : RegIdx} : NamesReg tok x ↔ resolveReg (stripComma tok) = .ok x := by
  simp only [NamesReg, spells_iff, exists_eq_left']

/-! Lines by their number of operands (R136, R138). -/

section
variable {syms : SymbolTable} {m : List Char} {form : OperandForm} {i : Instr}
  (hm : lookupName m mnemonicForms = some form)
include hm

/-- A line with operands is accepted exactly when the last one ends in no comma and the others, without theirs, make the
instruction. -/
theorem parseInstr_three (ta tb c : List Char) :
    parseInstr syms [m, ta, tb, c] = .ok i ↔
      c.getLast? ≠ some ',' ∧ buildInstr syms form [stripComma ta, stripComma tb, c] = .ok i := by
  rw [parseInstr_of_form hm, stripOperands_three]
  by_cases h : c.getLast? = some ',' <;> simp [h]

theorem parseInstr_two (ta c : List Char) :
    parseInstr syms [m, ta, c] = .ok i ↔
      c.getLast? ≠ some ',' ∧ buildInstr syms form [stripComma ta, c] = .ok i := by
  rw [parseInstr_of_form hm, stripOperands_two]
  by_cases h : c.getLast? = some ',' <;> simp [h]

theorem parseInstr_one (c : List Char) :
    parseInstr syms [m, c] = .ok i ↔ c.getLast? ≠ some ',' ∧ buildInstr syms form [c] = .ok i := by
  rw [parseInstr_of_form hm, stripOperands]
  by_cases h : c.getLast? = some ',' <;> simp [h]

end

/-! The operand lists (R138 to R140): which lines a mnemonic with each list accepts. Lists that differ only in the range
and the width of the last operand share a lemma, in which `build` says what the list does with its operands. -/

theorem parsesThreeRegs {m : String} {mk : RegIdx → RegIdx → RegIdx → Instr}
    (hm : lookupName m.toList mnemonicForms = some (.threeRegs mk)) : ParsesThreeRegs m mk := by
  intro syms ta tb c i
  rw [parseInstr_three hm]
  simp only [buildInstr, except_bind_ok_iff, namesReg_iff, Except.ok.injEq]
  constructor
  · rintro ⟨-, x, hx, y, hy, z, hz, rfl⟩
    exact ⟨x, y, z, hx, hy, hz, rfl⟩
  · rintro ⟨x, y, z, hx, hy, hz, rfl⟩
    exact ⟨no_comma_of_resolveReg hz, x, hx, y, hy, z, hz, rfl⟩

section
variable {m : String} {form : OperandForm} {n : Nat} {lo hi : Int} {even : Bool} {ok : Int → Prop}
  (hm : lookupName m.toList mnemonicForms = some form)
include hm

theorem parsesTwoRegsImm {mk : RegIdx → RegIdx → BitVec n → Instr}
    (build : ∀ syms a b c, buildInstr syms form [a, b, c] = do
      let x ← resolveReg a
      let y ← resolveReg b
      let v ← immOperand lo hi c
      .ok (mk x y (BitVec.ofInt n v))) : ParsesTwoRegsImm m lo hi mk := by
  intro syms ta tb c i
  rw [parseInstr_three hm, build]
  simp only [except_bind_ok_iff, immOperand_ok_iff, namesReg_iff, Except.ok.injEq]
  constructor
  · rintro ⟨-, x, hx, y, hy, v, ⟨hv, hlo, hhi⟩, rfl⟩
    exact ⟨x, y, v, hx, hy, hv, hlo, hhi, rfl⟩
  · rintro ⟨x, y, v, hx, hy, hv, hlo, hhi, rfl⟩
    exact ⟨no_comma_of_intLiteral hv, x, hx, y, hy, v, ⟨hv, hlo, hhi⟩, rfl⟩

theorem parsesRegImm {mk : RegIdx → BitVec n → Instr}
    (build : ∀ syms a c, buildInstr syms form [a, c] = do
      let x ← resolveReg a
      let v ← immOperand lo hi c
      .ok (mk x (BitVec.ofInt n v))) : ParsesRegImm m lo hi mk := by
  intro syms ta c i
  rw [parseInstr_two hm, build]
  simp only [except_bind_ok_iff, immOperand_ok_iff, namesReg_iff, Except.ok.injEq]
  constructor
  · rintro ⟨-, x, hx, v, ⟨hv, hlo, hhi⟩, rfl⟩
    exact ⟨x, v, hx, hv, hlo, hhi, rfl⟩
  · rintro ⟨x, v, hx, hv, hlo, hhi, rfl⟩
    exact ⟨no_comma_of_intLiteral hv, x, hx, v, ⟨hv, hlo, hhi⟩, rfl⟩

theorem parsesTwoRegsTarget {mk : RegIdx → RegIdx → BitVec n → Instr}
    (hok : ∀ v, ok v ↔ lo ≤ v ∧ v ≤ hi ∧ (even = true → v % 2 = 0))
    (build : ∀ syms a b c, buildInstr syms form [a, b, c] = do
      let x ← resolveReg a
      let y ← resolveReg b
      let v ← targetOperand syms lo hi even c
      .ok (mk x y (BitVec.ofInt n v))) : ParsesTwoRegsTarget m ok mk := by
  intro syms ta tb c i
  rw [parseInstr_three hm, build]
  simp only [except_bind_ok_iff, targetOperand_ok_iff, targetValue_ok_iff, namesReg_iff, Except.ok.injEq, TargetMeans, hok]
  constructor
  · rintro ⟨hc, x, hx, y, hy, v, ⟨hv, hrange⟩, rfl⟩
    exact ⟨x, y, v, hx, hy, hc, hv, hrange, rfl⟩
  · rintro ⟨x, y, v, hx, hy, hc, hv, hrange, rfl⟩
    exact ⟨hc, x, hx, y, hy, v, ⟨hv, hrange⟩, rfl⟩

theorem parsesRegTarget {mk : RegIdx → BitVec n → Instr}
    (hok : ∀ v, ok v ↔ lo ≤ v ∧ v ≤ hi ∧ (even = true → v % 2 = 0))
    (build : ∀ syms a c, buildInstr syms form [a, c] = do
      let x ← resolveReg a
      let v ← targetOperand syms lo hi even c
      .ok (mk x (BitVec.ofInt n v))) : ParsesRegTarget m ok mk := by
  intro syms ta c i
  rw [parseInstr_two hm, build]
  simp only [except_bind_ok_iff, targetOperand_ok_iff, targetValue_ok_iff, namesReg_iff, Except.ok.injEq, TargetMeans, hok]
  constructor
  · rintro ⟨hc, x, hx, v, ⟨hv, hrange⟩, rfl⟩
    exact ⟨x, v, hx, hc, hv, hrange, rfl⟩
  · rintro ⟨x, v, hx, hc, hv, hrange, rfl⟩
    exact ⟨hc, x, hx, v, ⟨hv, hrange⟩, rfl⟩

end

/-! The mnemonics (R138), each with the form that the model's table gives it. -/

theorem parses_regMnemonics : ∀ p ∈ regMnemonics, ParsesThreeRegs p.1 p.2 := by
  have hm : ∀ p ∈ regMnemonics, lookupName p.1.toList mnemonicForms = some (.threeRegs p.2) := by
    simp only [regMnemonics, List.forall_mem_cons]
    exact ⟨rfl, rfl, rfl, rfl, rfl, rfl, rfl, rfl, rfl, rfl, fun p hp => (nomatch hp)⟩
  exact fun p hp => parsesThreeRegs (hm p hp)

theorem parses_immMnemonics : ∀ p ∈ immMnemonics, ParsesTwoRegsImm p.1 (-2048) 2047 p.2 := by
  have hm : ∀ p ∈ immMnemonics, lookupName p.1.toList mnemonicForms = some (.twoRegsImm p.2) := by
    simp only [immMnemonics, List.cons_append, List.nil_append, List.forall_mem_cons]
    exact ⟨rfl, rfl, rfl, rfl, rfl, rfl, rfl, rfl, rfl, rfl, rfl, rfl, rfl, rfl, fun p hp => (nomatch hp)⟩
  exact fun p hp => parsesTwoRegsImm (hm p hp) fun _ _ _ _ => rfl

theorem parses_shiftMnemonics : ∀ p ∈ shiftMnemonics, ParsesTwoRegsImm p.1 0 31 p.2 := by
  have hm : ∀ p ∈ shiftMnemonics, lookupName p.1.toList mnemonicForms = some (.twoRegsShamt p.2) := by
    simp only [shiftMnemonics, List.forall_mem_cons]
    exact ⟨rfl, rfl, rfl, fun p hp => (nomatch hp)⟩
  exact fun p hp => parsesTwoRegsImm (hm p hp) fun _ _ _ _ => rfl

theorem parses_branchMnemonics :
    ∀ p ∈ branchMnemonics, ParsesTwoRegsTarget p.1 (fun v => -4096 ≤ v ∧ v ≤ 4094 ∧ v % 2 = 0) p.2 := by
  have hm : ∀ p ∈ branchMnemonics, lookupName p.1.toList mnemonicForms = some (.twoRegsTarget p.2) := by
    simp only [branchMnemonics, List.forall_mem_cons]
    exact ⟨rfl, rfl, rfl, rfl, rfl, rfl, fun p hp => (nomatch hp)⟩
  exact fun p hp => parsesTwoRegsTarget (hm p hp) (even := true) (by simp) fun _ _ _ _ => rfl

theorem parses_jal : ParsesRegTarget "jal" (fun v => -1048576 ≤ v ∧ v ≤ 1048574 ∧ v % 2 = 0) .jal :=
  parsesRegTarget (form := .regTarget .jal) rfl (even := true) (by simp) fun _ _ _ => rfl

theorem parses_jalr : ParsesTwoRegsTarget "jalr" (fun v => -2048 ≤ v ∧ v ≤ 2047) .jalr :=
  parsesTwoRegsTarget (form := .twoRegsTarget12 .jalr) rfl (even := false) (by simp) fun _ _ _ _ => rfl

theorem parses_lui : ParsesRegImm "lui" (-524288) 1048575 .lui :=
  parsesRegImm (form := .regUpper .lui) rfl fun _ _ _ => rfl

theorem parses_print (syms : SymbolTable) (c : List Char) (i : Instr) :
    parseInstr syms ["print".toList, c] = .ok i ↔ ∃ x, resolveReg c = .ok x ∧ i = .print x := by
  rw [parseInstr_one (form := .oneReg .print) rfl]
  simp only [buildInstr, except_bind_ok_iff, Except.ok.injEq]
  constructor
  · rintro ⟨-, x, hx, rfl⟩
    exact ⟨x, hx, rfl⟩
  · rintro ⟨x, hx, rfl⟩
    exact ⟨no_comma_of_resolveReg hx, x, hx, rfl⟩

/-! What the encoder accepts is well-formed (R105, R106, R140): targets are checked to be even. -/

/-- The instructions that an operand list makes are well-formed, given an even target where it has one. -/
def OperandForm.MakesWf : OperandForm → Prop
  | .threeRegs mk => ∀ x y z, (mk x y z).wf = true
  | .twoRegsImm mk => ∀ x y v, (mk x y v).wf = true
  | .twoRegsShamt mk => ∀ x y v, (mk x y v).wf = true
  | .twoRegsTarget mk => ∀ x y t, t.getLsbD 0 = false → (mk x y t).wf = true
  | .regTarget mk => ∀ x t, t.getLsbD 0 = false → (mk x t).wf = true
  | .twoRegsTarget12 mk => ∀ x y v, (mk x y v).wf = true
  | .regUpper mk => ∀ x v, (mk x v).wf = true
  | .noOperand i => i.wf = true
  | .oneReg mk => ∀ x, (mk x).wf = true

theorem makesWf_of_mnemonic : ∀ p ∈ mnemonicForms, p.2.MakesWf := by
  simp [mnemonicForms, regForms, immForms, memForms, controlForms, OperandForm.MakesWf, Instr.wf]

/-- An even number's field of at least one bit ends in the bit 0. -/
theorem ofInt_even {n : Nat} {v : Int} (h : v % 2 = 0) : (BitVec.ofInt (n + 1) v).getLsbD 0 = false := by
  have hdvd : (2 : Int) ∣ 2 ^ (n + 1) := dvd_pow_self 2 n.succ_ne_zero
  have hmod : v % 2 ^ (n + 1) % 2 = 0 := (Int.emod_emod_of_dvd v hdvd).trans h
  have hnat : (BitVec.ofInt (n + 1) v).toNat % 2 = 0 := by
    rw [BitVec.toNat_ofInt]; push_cast; omega
  rw [BitVec.getLsbD, Nat.testBit_zero, hnat]
  rfl

theorem wf_of_buildInstr {syms : SymbolTable} {form : OperandForm} {ts : List (List Char)} {i : Instr}
    (hform : form.MakesWf) (h : buildInstr syms form ts = .ok i) : i.wf = true := by
  unfold buildInstr at h
  split at h
  all_goals simp only [except_bind_ok_iff, targetOperand_ok_iff, Except.ok.injEq, reduceCtorEq] at h
  · obtain ⟨x, -, y, -, z, -, rfl⟩ := h
    exact hform x y z
  · obtain ⟨x, -, y, -, v, -, rfl⟩ := h
    exact hform x y _
  · obtain ⟨x, -, y, -, v, -, rfl⟩ := h
    exact hform x y _
  · obtain ⟨x, -, y, -, v, ⟨-, -, -, heven⟩, rfl⟩ := h
    exact hform x y _ (ofInt_even (heven trivial))
  · obtain ⟨x, -, v, ⟨-, -, -, heven⟩, rfl⟩ := h
    exact hform x _ (ofInt_even (heven trivial))
  · obtain ⟨x, -, y, -, v, -, rfl⟩ := h
    exact hform x y _
  · obtain ⟨x, -, v, -, rfl⟩ := h
    exact hform x _
  · subst h
    exact hform
  · obtain ⟨x, -, rfl⟩ := h
    exact hform x

theorem wf_of_parseInstr {syms : SymbolTable} {tokens : List (List Char)} {i : Instr}
    (h : parseInstr syms tokens = .ok i) : i.wf = true := by
  unfold parseInstr at h
  split at h
  · cases h
  · split at h
    · cases h
    · rename_i form hform
      split at h
      · cases h
      · exact wf_of_buildInstr (makesWf_of_mnemonic _ (lookupName_mem hform)) h

theorem encodeTokens_ok_iff {custom : Opcode} {syms : SymbolTable} {tokens : List (List Char)} {w : Word} :
    encodeTokens custom syms tokens = .ok w ↔ ∃ i, parseInstr syms tokens = .ok i ∧ encode custom i = w := by
  unfold encodeTokens
  cases parseInstr syms tokens <;> simp

/-- Settles O53: the lines by their operand lists, and the word by the round trip of well-formed instructions. -/
theorem assembledWordDecodes : Obligations.AssembledWordDecodes := by
  refine ⟨parses_regMnemonics, parses_immMnemonics, parses_shiftMnemonics, parses_branchMnemonics, parses_jal,
    parses_jalr, parses_lui, fun _ => rfl, parses_print, fun custom syms tokens w hv h => ?_⟩
  obtain ⟨i, hi, rfl⟩ := encodeTokens_ok_iff.1 h
  exact ⟨i, hi, wf_of_parseInstr hi, decode_encode hv (wf_of_parseInstr hi)⟩

/-! The values that the stored fields stand for (R110 to R114, R137). -/

/-- Digits alone are a literal: a minus sign is no digit. -/
theorem intLiteral_digits {ds : List Char} (hne : ds ≠ []) (hall : ds.all isDigitChar = true) :
    intLiteral ds = some (decimalValue ds : Int) := by
  unfold intLiteral
  split
  · simp [isDigitChar] at hall
  · rw [if_pos ⟨hne, hall⟩]

theorem intLiteral_neg_digits {ds : List Char} (hne : ds ≠ []) (hall : ds.all isDigitChar = true) :
    intLiteral ('-' :: ds) = some (-(decimalValue ds : Int)) := if_pos ⟨hne, hall⟩

theorem toDigits_all_digits (n : Nat) : (Nat.toDigits 10 n).all isDigitChar = true := by
  refine List.all_eq_true.2 fun c hc => ?_
  have h : c.isDigit = true := Nat.isDigit_of_mem_toDigits (by decide) (by decide) hc
  simpa [isDigitChar, Char.isDigit, UInt32.le_iff_toNat_le] using h

theorem decimalValue_toDigits (n : Nat) : decimalValue (Nat.toDigits 10 n) = n :=
  Nat.ofDigitChars_eq_foldl.symm.trans Nat.ofDigitChars_ten_toDigits

/-- Sign-extending the field of a value in the field's signed range gives the value. -/
theorem signExtend_ofInt {n : Nat} {v : Int} (hn : 0 < n) (hlo : -2 ^ (n - 1) ≤ v) (hhi : v < 2 ^ (n - 1)) :
    (BitVec.ofInt n v).signExtend 32 = BitVec.ofInt 32 v := by
  rw [BitVec.signExtend, BitVec.toInt_ofInt_eq_self hn hlo hhi]

/-- The upper-immediate field over twelve zero bits is the value times 4096, whatever its range (R114, R270). -/
theorem ofInt_upper (v : Int) : (BitVec.ofInt 20 v).setWidth 32 <<< 12 = BitVec.ofInt 32 (v * 4096) := by
  apply BitVec.eq_of_toNat_eq
  rw [BitVec.toNat_shiftLeft, BitVec.toNat_setWidth, BitVec.toNat_ofInt, BitVec.toNat_ofInt, Nat.shiftLeft_eq]
  omega

/-- Settles O54: the ranges that the lines are checked against fit the fields. -/
theorem operandValuesSurvive : Obligations.OperandValuesSurvive := by
  refine ⟨fun n => ⟨?_, ?_⟩, fun p hp syms ta tb c i h => ?_, fun p hp syms ta tb c i h => ?_,
    fun p hp syms ta tb c i h => ?_, fun syms ta c i h => ?_, fun syms ta tb c i h => ?_, fun syms ta c i h => ?_⟩
  · rw [intLiteral_digits Nat.toDigits_ne_nil (toDigits_all_digits n), decimalValue_toDigits]
  · rw [intLiteral_neg_digits Nat.toDigits_ne_nil (toDigits_all_digits n), decimalValue_toDigits]
  · obtain ⟨x, y, v, -, -, hv, hlo, hhi, rfl⟩ := (parses_immMnemonics p hp syms ta tb c i).1 h
    exact ⟨x, y, _, v, rfl, hv, signExtend_ofInt (by decide) hlo (Int.lt_add_one_of_le hhi)⟩
  · obtain ⟨x, y, v, -, -, hv, hlo, hhi, rfl⟩ := (parses_shiftMnemonics p hp syms ta tb c i).1 h
    refine ⟨x, y, _, v, rfl, hv, ?_⟩
    rw [BitVec.toNat_ofInt]
    omega
  · obtain ⟨x, y, v, -, -, -, hv, ⟨hlo, hhi, -⟩, rfl⟩ := (parses_branchMnemonics p hp syms ta tb c i).1 h
    exact ⟨x, y, _, v, rfl, hv, signExtend_ofInt (by decide) hlo (by omega)⟩
  · obtain ⟨x, v, -, -, hv, ⟨hlo, hhi, -⟩, rfl⟩ := (parses_jal syms ta c i).1 h
    exact ⟨x, _, v, rfl, hv, signExtend_ofInt (by decide) hlo (by omega)⟩
  · obtain ⟨x, y, v, -, -, -, hv, ⟨hlo, hhi⟩, rfl⟩ := (parses_jalr syms ta tb c i).1 h
    exact ⟨x, y, _, v, rfl, hv, signExtend_ofInt (by decide) hlo (by omega)⟩
  · obtain ⟨x, v, -, hv, -, -, rfl⟩ := (parses_lui syms ta c i).1 h
    exact ⟨x, _, v, rfl, hv, ofInt_upper v⟩

end Sys2Proof.Machine
end

section
/-! The two passes and the order of the encoder's errors (30_encoding.md R132 to R135, R151, R153, R155). -/

open Sys2Proof.Claims

namespace Sys2Proof.Machine

/-! Pass 1 (R132, R133). -/

/-- Pass 1 over two parts: the second begins at the address after the instruction lines of the first, with its table. -/
theorem passOneFrom_append {n : Nat} {addr : Word} {syms out : SymbolTable} {front back : List SourceLine}
    (h : passOneFrom n addr syms (front ++ back) = .ok out) :
    ∃ n' mid, passOneFrom n addr syms front = .ok mid ∧
      passOneFrom n' (addr + BitVec.ofNat 32 (4 * instrCount front)) mid back = .ok out := by
  induction front generalizing n addr syms with
  | nil => exact ⟨n, syms, rfl, by simpa [instrCount] using h⟩
  | cons x r ih =>
    cases x with
    | blank => exact ih h
    | malformed => cases h
    | label l =>
      rw [List.cons_append, passOneFrom] at h
      split at h
      · cases h
      · rename_i hl
        rw [passOneFrom, if_neg hl]
        exact ih h
    | instruction tokens =>
      have hcount : addr + 4#32 + BitVec.ofNat 32 (4 * instrCount r) =
          addr + BitVec.ofNat 32 (4 * instrCount (.instruction tokens :: r)) := by
        rw [instrCount, Nat.mul_add, BitVec.ofNat_add, BitVec.add_assoc, BitVec.add_comm 4#32]
      rw [← hcount]
      exact ih h

/-- A label line that pass 1 accepts is a new label, and is bound to the address it stands at. -/
theorem passOneFrom_label {n : Nat} {addr : Word} {syms out : SymbolTable} {l : List Char} {rest : List SourceLine}
    (h : passOneFrom n addr syms (.label l :: rest) = .ok out) :
    lookupName l syms = none ∧ lookupName l out = some addr := by
  rw [passOneFrom] at h
  split at h
  · cases h
  · rename_i hl
    exact ⟨by simpa using hl, passOneFrom_keeps h (if_pos rfl)⟩

/-- Pass 1 fails with `MalformedLine` alone (R132, R151). -/
theorem passOneFrom_error {n : Nat} {addr : Word} {syms : SymbolTable} {lines : List SourceLine} {e : AsmError}
    (h : passOneFrom n addr syms lines = .error e) : ∃ k, e = ⟨k, .malformedLine⟩ := by
  induction lines generalizing n addr syms with
  | nil => cases h
  | cons x r ih =>
    cases x with
    | blank | instruction => exact ih h
    | malformed => cases h; exact ⟨n, rfl⟩
    | label l =>
      rw [passOneFrom] at h
      split at h
      · cases h; exact ⟨n, rfl⟩
      · exact ih h

/-- Settles O55: the label's line is reached with the address of the instruction lines before it. -/
theorem labelBindsNextAddress : Obligations.LabelBindsNextAddress := by
  intro before after l syms h
  obtain ⟨n, mid, -, hrest⟩ := passOneFrom_append h
  rw [resolveSym, (passOneFrom_label hrest).2, BitVec.zero_add]

/-- Settles O56: the first of the two lines binds the label, the lines between keep it, and the second is refused. -/
theorem duplicateLabelRejected : Obligations.DuplicateLabelRejected := by
  intro before between after l
  cases h : passOne (before ++ .label l :: (between ++ .label l :: after)) with
  | error e =>
    obtain ⟨n, rfl⟩ := passOneFrom_error h
    exact ⟨n, rfl⟩
  | ok out =>
    obtain ⟨n, mid, -, hfirst⟩ := passOneFrom_append h
    rw [← List.cons_append] at hfirst
    obtain ⟨n', mid', hbetween, hsecond⟩ := passOneFrom_append hfirst
    obtain ⟨-, hbound⟩ := passOneFrom_label hbetween
    obtain ⟨hnew, -⟩ := passOneFrom_label hsecond
    rw [hbound] at hnew
    cases hnew

/-! Pass 2 (R135, R155). -/

theorem length_passTwoFrom {custom : Opcode} {syms : SymbolTable} {n : Nat} {lines : List SourceLine} {ws : List Word}
    (h : passTwoFrom custom syms n lines = .ok ws) : ws.length = instrCount lines := by
  induction lines generalizing n ws with
  | nil => cases h; rfl
  | cons x r ih =>
    cases x with
    | blank | label => exact ih h
    | malformed => cases h
    | instruction tokens =>
      rw [passTwoFrom] at h
      split at h
      · cases h
      · split at h
        · rename_i hrest
          cases h
          exact congrArg (· + 1) (ih hrest)
        · cases h

/-- Settles O57: the words are those of pass 2. -/
theorem oneWordPerInstructionLine : Obligations.OneWordPerInstructionLine := by
  intro custom lines ws h
  unfold assembleLines at h
  split at h
  · cases h
  · exact length_passTwoFrom h

/-- Settles O58: an operand's value depends on the table by `resolveSym` alone. -/
theorem wordDependsOnAddressesOnly : Obligations.WordDependsOnAddressesOnly := by
  intro custom syms syms' tokens h
  have hvalue : targetValue syms = targetValue syms' := by
    funext tok
    rw [targetValue, h tok, ← targetValue]
  have htarget : targetOperand syms = targetOperand syms' := by
    funext lo hi even tok
    rw [targetOperand, hvalue, ← targetOperand]
  have hbuild : buildInstr syms = buildInstr syms' := by
    funext form ts
    unfold buildInstr
    rw [htarget]
  have hparse : parseInstr syms tokens = parseInstr syms' tokens := by
    unfold parseInstr
    rw [hbuild]
  rw [encodeTokens, hparse, ← encodeTokens]

/-! The order of the encoder's errors (R151, R153). -/

/-- A wrong number of operands is malformed whatever the operands are (R136). -/
theorem buildInstr_of_length_ne {syms : SymbolTable} {form : OperandForm} {ts : List (List Char)}
    (h : ts.length ≠ formArity form) : buildInstr syms form ts = .error .malformedLine := by
  unfold buildInstr
  split
  case h_10 => rfl
  all_goals exact absurd rfl h

/-- Settles O59: the mnemonic is looked up first, and taking commas off keeps the number of operands. -/
theorem encoderErrorOrder : Obligations.EncoderErrorOrder := by
  refine ⟨fun syms m operands h => ?_, by decide, fun syms m form operands hm hlen => ?_⟩
  · simp only [parseInstr, h]
  · rw [parseInstr_of_form hm]
    split
    · rfl
    · rename_i ts hts
      exact buildInstr_of_length_ne (by rwa [length_stripOperands hts])

end Sys2Proof.Machine
end

section
/-! The loader reads the assembler's output text (30_encoding.md R152; 70_reset_and_hazards.md R341). -/

namespace Sys2Proof.Machine

/-! One word's line. -/

theorem length_wordLine (w : Word) : (wordLine w).length = 32 := by simp [wordLine]

theorem wordLine_binary {w : Word} {c : Char} (hc : c ∈ wordLine w) : c = '0' ∨ c = '1' := by
  obtain ⟨k, -, rfl⟩ := List.mem_map.1 hc
  cases w.getMsbD k
  · exact .inl rfl
  · exact .inr rfl

/-- A text without whitespace is trimmed to itself. -/
theorem trimText_of_no_space {t : List Char} (h : ∀ c ∈ t, isSpaceChar c = false) : trimText t = t := by
  have hfront : t.dropWhile isSpaceChar = t :=
    List.dropWhile_eq_self_iff.2 fun hl => Bool.eq_false_iff.1 (h _ (List.getElem_mem hl))
  have hback : t.reverse.dropWhile isSpaceChar = t.reverse :=
    List.dropWhile_eq_self_iff.2 fun hl => Bool.eq_false_iff.1 (h _ (List.mem_reverse.1 (List.getElem_mem hl)))
  rw [trimText, hfront, hback, List.reverse_reverse]

theorem binaryValue_concat (ds : List Char) (b : Bool) :
    binaryValue (ds ++ [if b then '1' else '0']) = 2 * binaryValue ds + b.toNat := by
  rw [binaryValue, List.foldl_append]
  cases b <;> rfl

/-- The first `k` digits of a word's line write the word's `k` most significant bits. -/
theorem binaryValue_wordLine_front (w : Word) {k : Nat} (hk : k ≤ 32) :
    binaryValue ((List.range k).map fun j => if w.getMsbD j then '1' else '0') = w.toNat / 2 ^ (32 - k) := by
  induction k with
  | zero => exact (Nat.div_eq_of_lt w.isLt).symm
  | succ k ih =>
    have hbit : w.getMsbD k = w.toNat.testBit (32 - (k + 1)) := by
      rw [BitVec.getMsbD, decide_eq_true (by omega), Bool.true_and, BitVec.getLsbD]
      congr 1
      omega
    have hexp : 32 - k = 32 - (k + 1) + 1 := by omega
    calc binaryValue ((List.range (k + 1)).map fun j => if w.getMsbD j then '1' else '0')
        = 2 * (w.toNat / 2 ^ (32 - k)) + (w.getMsbD k).toNat := by
          rw [List.range_succ, List.map_append, List.map_singleton, binaryValue_concat, ih (by omega)]
      _ = 2 * (w.toNat / 2 ^ (32 - (k + 1)) / 2) + w.toNat / 2 ^ (32 - (k + 1)) % 2 := by
          rw [hbit, Nat.toNat_testBit, hexp, Nat.pow_succ, Nat.div_div_eq_div_mul]
      _ = w.toNat / 2 ^ (32 - (k + 1)) := Nat.div_add_mod _ 2

theorem parseWordLine_wordLine (w : Word) : parseWordLine (wordLine w) = some w := by
  have htrim : trimText (wordLine w) = wordLine w := by
    refine trimText_of_no_space fun c hc => ?_
    obtain rfl | rfl := wordLine_binary hc <;> rfl
  have hbinary : (wordLine w).all isBinaryChar = true := by
    refine List.all_eq_true.2 fun c hc => ?_
    obtain rfl | rfl := wordLine_binary hc <;> rfl
  have hvalue : binaryValue (wordLine w) = w.toNat := (binaryValue_wordLine_front w le_rfl).trans (Nat.div_one _)
  have hne : wordLine w ≠ [] := List.ne_nil_of_length_pos (by rw [length_wordLine]; decide)
  simp only [parseWordLine, htrim]
  rw [if_pos ⟨hne, (length_wordLine w).le, hbinary⟩, hvalue, BitVec.ofNat_toNat, BitVec.setWidth_eq]

theorem parseWordLines_wordLines (ws : List Word) : parseWordLines (ws.map wordLine) = some ws := by
  induction ws with
  | nil => rfl
  | cons w r ih => simp only [List.map_cons, parseWordLines, parseWordLine_wordLine, ih]

/-! The text's lines. -/

/-- A line without line feeds, and the line feed after it, are split off the text. -/
theorem splitLines_line {line : List Char} (rest : List Char) (h : '\n' ∉ line) :
    splitLines (line ++ '\n' :: rest) = line :: splitLines rest := by
  induction line with
  | nil => exact if_pos rfl
  | cons c r ih =>
    obtain ⟨hc, hr⟩ := not_or.1 (List.mem_cons.not.1 h)
    simp only [List.cons_append, splitLines, if_neg (Ne.symm hc), ih hr]

theorem splitLines_outputText (ws : List Word) : splitLines (outputText ws) = ws.map wordLine ++ [[]] := by
  induction ws with
  | nil => rfl
  | cons w r ih =>
    have hline : '\n' ∉ wordLine w := fun h => by
      obtain h | h := wordLine_binary h <;> cases h
    rw [outputText, splitLines_line _ hline, ih]
    rfl

/-- Settles O60: the loader drops the empty line after the last line feed and reads each of the other lines as its word. -/
theorem loaderReadsAssemblerOutput : Obligations.LoaderReadsAssemblerOutput := by
  intro ws hlen
  have hlines : dropFinalEmpty (splitLines (outputText ws)) = ws.map wordLine := by
    rw [splitLines_outputText, dropFinalEmpty, if_pos List.getLast?_concat, List.dropLast_concat]
  rw [parseProgram, hlines, parseWordLines_wordLines]
  exact if_pos hlen

end Sys2Proof.Machine
end

section
/-! The execute cycle: what a step answers in each state (40_execute_cycle.md R170 to R173; 60_exceptions.md R306). -/

namespace Sys2Proof.Machine

/-! No instruction is refused: the shared operations answer a next state or raise a fault. -/

theorem loadOp_ne_refused {s : State} {i : Instr} {n : Width} {signed : Bool} {rd rs1 : RegIdx} {imm : BitVec 12}
    {r : Refusal} : s.loadOp i n signed rd rs1 imm ≠ .refused r := by
  rw [loadOp_eq]
  split <;> exact nofun

theorem storeOp_ne_refused {s : State} {i : Instr} {n : Width} {rs2 rs1 : RegIdx} {imm : BitVec 12} {r : Refusal} :
    s.storeOp i n rs2 rs1 imm ≠ .refused r := by
  rw [storeOp_eq]
  split <;> exact nofun

theorem jumpTo_ne_refused {s : State} {i : Instr} {t : Word} {after : State} {r : Refusal} :
    s.jumpTo i t after ≠ .refused r := by
  rw [State.jumpTo]
  split <;> exact nofun

theorem branchOp_ne_refused {s : State} {i : Instr} {cond : Word → Word → Bool} {rs1 rs2 : RegIdx} {tgt : BitVec 13}
    {r : Refusal} : s.branchOp i cond rs1 rs2 tgt ≠ .refused r := by
  rw [branchOp_eq]
  split
  · exact jumpTo_ne_refused
  · exact nofun

theorem exec_ne_refused (i : Instr) (s : State) (r : Refusal) : exec i s ≠ .refused r := by
  cases i
  case add | sub | sll | slt | sltu | xor | srl | sra | or | and | addi | slti | sltiu | xori | ori | andi | slli | srli
      | srai | lui | halt | print => exact nofun
  case lb | lh | lw | lbu | lhu => exact loadOp_ne_refused
  case sb | sh | sw => exact storeOp_ne_refused
  case beq | bne | blt | bge | bltu | bgeu => exact branchOp_ne_refused
  case jal | jalr => exact jumpTo_ne_refused

/-! The step, by the machine's being halted and by the decoding of the fetched word. -/

theorem isHalted_eq_false_iff (s : State) :
    s.isHalted = false ↔ s.haltFlag = false ∧ s.pc.toNat < 4 * s.imem.length := by
  rw [← Bool.not_eq_true, isHalted_iff, not_or, Bool.not_eq_true, Nat.not_le]

theorem step_of_isHalted {s : State} (h : s.isHalted = true) : step s = .fault .halted := if_pos h

theorem step_of_decode {s : State} {w : Word} {i : Instr} (hrun : s.isHalted = false) (hfetch : s.fetch = some w)
    (hdec : decode s.customOpcode w = .ok i) : step s = exec i s := by
  rw [step_eq hrun hfetch, hdec]

theorem step_of_decode_error {s : State} {w : Word} {k : DecodeFault} (hrun : s.isHalted = false)
    (hfetch : s.fetch = some w) (hdec : decode s.customOpcode w = .error k) :
    step s = .fault (.faulted (faultOfDecode k) s.pc w) := by
  rw [step_eq hrun hfetch, hdec]

/-- A running machine's step is the fault of decoding the fetched word, or the execution of an instruction. -/
theorem step_of_running {s : State} (hrun : s.isHalted = false) :
    (∃ kind w, step s = .fault (.faulted kind s.pc w)) ∨ ∃ i, step s = exec i s := by
  obtain ⟨w, hfetch⟩ := fetch_of_not_halted hrun
  cases hdec : decode s.customOpcode w with
  | error k => exact .inl ⟨_, w, step_of_decode_error hrun hfetch hdec⟩
  | ok i => exact .inr ⟨i, step_of_decode hrun hfetch hdec⟩

theorem step_ne_refused (s : State) (r : Refusal) : step s ≠ .refused r := by
  cases hrun : s.isHalted with
  | true => rw [step_of_isHalted hrun]; exact nofun
  | false =>
    obtain ⟨kind, w, hstep⟩ | ⟨i, hstep⟩ := step_of_running hrun
    · rw [hstep]; exact nofun
    · rw [hstep]; exact exec_ne_refused i s r

/-- A running machine does not answer `Halted`: neither a decoding nor an instruction raises it. -/
theorem step_ne_halted {s : State} (hrun : s.isHalted = false) : step s ≠ .fault .halted := by
  intro h
  obtain ⟨kind, w, hstep⟩ | ⟨i, hstep⟩ := step_of_running hrun
  · cases hstep.symm.trans h
  · obtain ⟨kind, hf⟩ := exec_fault_records (hstep.symm.trans h)
    cases hf

theorem step_halted_iff (s : State) : step s = .fault .halted ↔ s.isHalted = true := by
  refine ⟨fun h => ?_, step_of_isHalted⟩
  by_contra hrun
  exact step_ne_halted (Bool.eq_false_of_not_eq_true hrun) h

/-- Settles O9: the machine is running and fetches `w`. -/
theorem stepRunsDecodedInstruction : Obligations.StepRunsDecodedInstruction := fun s _ _ hflag hpc hfetch hdec =>
  step_of_decode ((isHalted_eq_false_iff s).2 ⟨hflag, hpc⟩) hfetch hdec

/-- Settles O10: where no word is loaded, pc is at the end of instruction memory. -/
theorem stepHaltsExactlyWhenHalted : Obligations.StepHaltsExactlyWhenHalted := by
  refine ⟨isHalted_iff, step_halted_iff, fun size init custom s hload => ?_⟩
  obtain ⟨-, rfl⟩ := load_some hload
  exact (isHalted_iff _).2 (.inr (Nat.zero_le _))

/-- Settles O12: a step is not refused, and a fault other than `Halted` records pc and the fetched word. -/
theorem stepNeverRefuses : Obligations.StepNeverRefuses := by
  intro s
  cases h : step s with
  | next t => exact .inl ⟨t, rfl⟩
  | refused r => exact absurd h (step_ne_refused s r)
  | fault f =>
    cases f with
    | halted => exact .inr (.inl rfl)
    | faulted kind pc w =>
      obtain ⟨-, rfl, hw⟩ := faultRecordsPcAndWord s kind pc w h
      exact .inr (.inr ⟨kind, by rw [List.getD_eq_getElem?_getD, hw, Option.getD_some]⟩)

end Sys2Proof.Machine
end

section
/-! The run under a step budget: its steps, its end, and that the end is final (40_execute_cycle.md R174, R177, R179). -/

namespace Sys2Proof.Machine

/-- The run outcome of a step's terminal outcome. -/
def RunOutcome.ofFault : Fault → RunOutcome
  | .halted => .halted
  | .faulted kind pc w => .faulted kind pc w

theorem RunOutcome.ofFault_injective : Function.Injective RunOutcome.ofFault
  | .halted, .halted, _ => rfl
  | .faulted .., .faulted .., rfl => rfl

theorem RunOutcome.ofFault_ne_unfinished (f : Fault) : RunOutcome.ofFault f ≠ .unfinished := by
  cases f <;> exact nofun

theorem run_of_next {s t : State} (k : Nat) (h : step s = .next t) : run (k + 1) s = run k t := by
  rw [run, h]

theorem run_of_fault {s : State} {f : Fault} (k : Nat) (h : step s = .fault f) : run (k + 1) s = ⟨.ofFault f, s⟩ := by
  rw [run, h]
  cases f <;> rfl

/-- A run that ended did so because a step at its final state answers the outcome. -/
theorem step_final_of_run {k : Nat} {s : State} {f : Fault} (h : (run k s).outcome = .ofFault f) :
    step (run k s).final = .fault f := by
  induction k generalizing s with
  | zero => exact absurd h.symm (RunOutcome.ofFault_ne_unfinished f)
  | succ k ih =>
    cases hstep : step s with
    | next t =>
      rw [run_of_next k hstep] at h ⊢
      exact ih h
    | fault g =>
      rw [run_of_fault k hstep] at h ⊢
      rw [← RunOutcome.ofFault_injective h]
      exact hstep
    | refused r => exact absurd hstep (step_ne_refused s r)

/-- Settles O16: a run ends by a step's answer, so what is known of the step that faults or halts is known of the final
state. -/
theorem runEndStates : Obligations.RunEndStates := by
  refine fun k s => ⟨rfl, fun _ => run_of_next k, run_of_fault k, fun _ _ _ => run_of_fault k, fun kind pc w h => ?_,
    fun h => ?_⟩
  · have hstep : step (run k s).final = .fault (.faulted kind pc w) := step_final_of_run h
    obtain ⟨-, hpc, -⟩ := faultRecordsPcAndWord _ _ _ _ hstep
    exact ⟨hpc, hstep⟩
  · have hstep : step (run k s).final = .fault .halted := step_final_of_run h
    exact (isHalted_iff _).1 ((step_halted_iff _).1 hstep)

/-- Settles O17: both runs make the same steps up to the terminal answer, within the smaller budget. -/
theorem endedRunIsFinal : Obligations.EndedRunIsFinal := by
  intro k j s h
  induction k generalizing s with
  | zero => exact absurd rfl h
  | succ k ih =>
    rw [Nat.add_right_comm]
    cases hstep : step s with
    | next t =>
      rw [run_of_next k hstep] at h
      rw [run_of_next _ hstep, run_of_next k hstep, ih t h]
    | fault f => rw [run_of_fault _ hstep, run_of_fault k hstep]
    | refused r => exact absurd hstep (step_ne_refused s r)

end Sys2Proof.Machine
end

section
/-! Register-register ALU instructions (41_alu_register.md R190 to R200). -/

open Sys2Proof.Claims

namespace Sys2Proof.Machine

/-! The operators in the plain arithmetic of the statements (R18, R193). -/

theorem bool32_ltSigned (a b : Word) : bool32 (ltSigned a b) = if a.toInt < b.toInt then 1#32 else 0#32 := by
  simp [bool32, ltSigned]

theorem bool32_ltUnsigned (a b : Word) : bool32 (ltUnsigned a b) = if a.toNat < b.toNat then 1#32 else 0#32 := by
  simp [bool32, ltUnsigned]

theorem regShiftAmount_eq_mod (v : Word) : regShiftAmount v = v.toNat % 32 := by
  rw [regShiftAmount, BitVec.extractLsb'_toNat, Nat.shiftRight_zero]

section
variable {s : State} {i : Instr} {f7 : BitVec 7} {f3 : BitVec 3} {rd rs1 rs2 : RegIdx}

/-- An instruction with an R-type word that is executed as `f` of its two operands meets the rule of its value `v`: the
common frame `State.aluReg` writes rd, advances pc and nothing more (R102, R190). -/
theorem rTypeRule_of_aluReg {v : Word} (f : Word → Word → Word)
    (hword : encode s.customOpcode i = encodeR f7 rs2 rs1 f3 rd opOp) (hexec : exec i s = s.aluReg f rd rs1 rs2)
    (hv : f (s.readReg rs1) (s.readReg rs2) = v) : RTypeRule s i f7 f3 rd rs1 rs2 v where
  word := hword
  result := ⟨_, hexec, hv ▸ writesReg_advancePc s rd _⟩

/-- A register shift by `shift`: its amount is the operand modulo 32 (R193, D16). -/
theorem rTypeRule_of_shift (shift : Word → Nat → Word)
    (hword : encode s.customOpcode i = encodeR f7 rs2 rs1 f3 rd opOp)
    (hexec : exec i s = s.aluReg (fun a b => shift a (regShiftAmount b)) rd rs1 rs2) :
    RTypeRule s i f7 f3 rd rs1 rs2 (shift (s.readReg rs1) ((s.readReg rs2).toNat % 32)) :=
  rTypeRule_of_aluReg _ hword hexec (by rw [regShiftAmount_eq_mod])

end

/-- Settles O33: each of the seven is the common frame of an operator on the operands, and the two comparisons give 1 or
0. -/
theorem registerAluResults : Obligations.RegisterAluResults := by
  rintro s rd rs1 rs2 a b rfl rfl
  refine ⟨?add, ?sub, ?slt, ?sltu, ?xor, ?or, ?and⟩
  case add => exact rTypeRule_of_aluReg (fun a b => a + b) rfl rfl rfl
  case sub => exact rTypeRule_of_aluReg (fun a b => a - b) rfl rfl rfl
  case slt => exact rTypeRule_of_aluReg (fun a b => bool32 (ltSigned a b)) rfl rfl (bool32_ltSigned _ _)
  case sltu => exact rTypeRule_of_aluReg (fun a b => bool32 (ltUnsigned a b)) rfl rfl (bool32_ltUnsigned _ _)
  case xor => exact rTypeRule_of_aluReg (fun a b => a ^^^ b) rfl rfl rfl
  case or => exact rTypeRule_of_aluReg (fun a b => a ||| b) rfl rfl rfl
  case and => exact rTypeRule_of_aluReg (fun a b => a &&& b) rfl rfl rfl

/-- Settles O34: the three are the common frame of a shift by the low five bits of the second operand. -/
theorem registerShiftResults : Obligations.RegisterShiftResults := by
  rintro s rd rs1 rs2 a b rfl rfl
  refine ⟨?sll, ?srl, ?sra⟩
  case sll => exact rTypeRule_of_shift shiftLeft rfl rfl
  case srl => exact rTypeRule_of_shift shiftRightLogical rfl rfl
  case sra => exact rTypeRule_of_shift shiftRightArith rfl rfl

end Sys2Proof.Machine
end

section
/-! Register-immediate ALU instructions (42_alu_immediate.md R210 to R219). -/

open Sys2Proof.Claims

namespace Sys2Proof.Machine

/-- The signed comparison with a sign-extended immediate is the comparison with the immediate's own signed value (R212). -/
theorem bool32_ltSigned_sextImm12 (a : Word) (imm : BitVec 12) :
    bool32 (ltSigned a (sextImm12 imm)) = if a.toInt < imm.toInt then 1#32 else 0#32 := by
  have hsext : (sextImm12 imm).toInt = imm.toInt := BitVec.toInt_signExtend_of_le (by decide)
  rw [bool32_ltSigned, hsext]

section
variable {s : State} {i : Instr} {rd rs1 : RegIdx}

/-- An instruction with an I-type word that is executed as `f` of its operand and its sign-extended immediate meets the
rule of its value `v`: the common frame `State.aluImm` writes rd, advances pc and nothing more (R103, R210). -/
theorem iTypeRule_of_aluImm {f3 : BitVec 3} {imm : BitVec 12} {v : Word} (f : Word → Word → Word)
    (hword : encode s.customOpcode i = encodeI imm rs1 f3 rd opOpImm) (hexec : exec i s = s.aluImm f rd rs1 imm)
    (hv : f (s.readReg rs1) (sextImm12 imm) = v) : ITypeRule s i f3 rd rs1 imm v where
  word := hword
  result := ⟨_, hexec, hv ▸ writesReg_advancePc s rd _⟩

/-- An instruction that is executed as `shift` by its five-bit field writes the operand shifted by that amount, unsigned,
and no more than `State.aluShift` does (R210, D35). -/
theorem completesWith_of_aluShift {shamt : BitVec 5} (shift : Word → Nat → Word)
    (hexec : exec i s = s.aluShift shift rd rs1 shamt) :
    CompletesWith s i rd (shift (s.readReg rs1) shamt.toNat) :=
  ⟨_, hexec, writesReg_advancePc s rd _⟩

end

/-- Settles O35: each of the six is the common frame of an operator on the operand and the sign-extended immediate;
`slti` alone is stated by the immediate's own signed value. -/
theorem immediateAluResults : Obligations.ImmediateAluResults := by
  rintro s rd rs1 imm a rfl
  refine ⟨?addi, ?slti, ?sltiu, ?xori, ?ori, ?andi⟩
  case addi => exact iTypeRule_of_aluImm (fun a i => a + i) rfl rfl rfl
  case slti => exact iTypeRule_of_aluImm (fun a i => bool32 (ltSigned a i)) rfl rfl (bool32_ltSigned_sextImm12 _ _)
  case sltiu => exact iTypeRule_of_aluImm (fun a i => bool32 (ltUnsigned a i)) rfl rfl (bool32_ltUnsigned _ _)
  case xori => exact iTypeRule_of_aluImm (fun a i => a ^^^ i) rfl rfl rfl
  case ori => exact iTypeRule_of_aluImm (fun a i => a ||| i) rfl rfl rfl
  case andi => exact iTypeRule_of_aluImm (fun a i => a &&& i) rfl rfl rfl

/-- Settles O36: the three are the common frame of a shift by the five-bit field. -/
theorem immediateShiftResults : Obligations.ImmediateShiftResults := by
  intro s rd rs1 shamt
  refine ⟨?slli, ?srli, ?srai⟩
  case slli => exact completesWith_of_aluShift shiftLeft rfl
  case srli => exact completesWith_of_aluShift shiftRightLogical rfl
  case srai => exact completesWith_of_aluShift shiftRightArith rfl

end Sys2Proof.Machine
end

section
/-! Loads and stores (43_load_store.md R230 to R239): each is the common frame of its kind, so what the frame does at an
effective address is its rule. -/

open Sys2Proof.Claims

namespace Sys2Proof.Machine

section
variable {s : State} {i : Instr} {n : Width} {rs1 : RegIdx} {imm : BitVec 12}

/-- A load whose check faults answers that fault (R230). -/
theorem loadOp_of_fault {signed : Bool} {rd : RegIdx} {k : FaultKind}
    (hc : s.checkAccess (s.effAddr rs1 imm) n = some k) :
    s.loadOp i n signed rd rs1 imm = .fault (.faulted k s.pc (encode s.customOpcode i)) := by
  rw [loadOp_eq, hc]; rfl

/-- A store whose check faults answers that fault (R236). -/
theorem storeOp_of_fault {rs2 : RegIdx} {k : FaultKind} (hc : s.checkAccess (s.effAddr rs1 imm) n = some k) :
    s.storeOp i n rs2 rs1 imm = .fault (.faulted k s.pc (encode s.customOpcode i)) := by
  rw [storeOp_eq, hc]; rfl

/-- A store whose check passes completes (R236). -/
theorem storeOp_of_pass {rs2 : RegIdx} (hc : s.checkAccess (s.effAddr rs1 imm) n = none) :
    s.storeOp i n rs2 rs1 imm = .next (afterStore s (s.effAddr rs1 imm) n (s.readReg rs2)) := by
  rw [storeOp_eq, hc]

/-- On canonical memory the state after a store holds the low bytes of the value, and nothing else has changed. -/
theorem storesBytes_afterStore (ea v : Word) (hm : s.dmem.wf = true) : StoresBytes s (afterStore s ea n v) ea n v where
  pc := rfl
  regs _ := rfl
  inside k hk := readByte_write_inside ea.toNat v n k hm hk
  outside a ha := readByte_write_outside s.dmem ea.toNat a v n ha
  size := rfl
  imem := rfl
  halt := rfl
  out := rfl
  custom := rfl

/-- An instruction that is executed as a load meets the rule of its extended value `v`, by the answers of the check
(R63, R64, R230). -/
theorem loadRule_of_loadOp (signed : Bool) {rd : RegIdx} {v : Word}
    (hexec : exec i s = s.loadOp i n signed rd rs1 imm)
    (hv : extendLoaded signed (s.dmem.read (s.effAddr rs1 imm).toNat n) = v) :
    LoadRule s i rd (s.effAddr rs1 imm) n v where
  completes hal hin := by
    have hc := (checkAccess_eq_none s _ n).mpr ⟨hal, hin⟩
    rw [CompletesWith, hexec, loadOp_eq, hc, hv]
    exact ⟨_, rfl, writesReg_advancePc s rd v⟩
  misaligned hmis := hexec.trans (loadOp_of_fault (checkAccess_misaligned s _ n hmis))
  outOfRange hal hout := hexec.trans (loadOp_of_fault (checkAccess_outOfRange s _ n hal hout))

/-- An instruction that is executed as a store of `rs2` meets the rule of that register's value, by the answers of the
check (R63, R64, R236). -/
theorem storeRule_of_storeOp {rs2 : RegIdx} (hexec : exec i s = s.storeOp i n rs2 rs1 imm) :
    StoreRule s i (s.effAddr rs1 imm) n (s.readReg rs2) where
  completes hm hal hin :=
    ⟨_, hexec.trans (storeOp_of_pass ((checkAccess_eq_none s _ n).mpr ⟨hal, hin⟩)), storesBytes_afterStore _ _ hm⟩
  misaligned hmis := hexec.trans (storeOp_of_fault (checkAccess_misaligned s _ n hmis))
  outOfRange hal hout := hexec.trans (storeOp_of_fault (checkAccess_outOfRange s _ n hal hout))

end

/-- Settles O37: the five are one frame at three widths and two extensions; a word is its own sign extension. -/
theorem loadResults : Obligations.LoadResults := by
  rintro s rd rs1 imm ea rfl
  refine ⟨?lb, ?lh, ?lw, ?lbu, ?lhu⟩
  case lb => exact loadRule_of_loadOp true rfl rfl
  case lh => exact loadRule_of_loadOp true rfl rfl
  case lw => exact loadRule_of_loadOp true rfl (BitVec.signExtend_eq _)
  case lbu => exact loadRule_of_loadOp false rfl rfl
  case lhu => exact loadRule_of_loadOp false rfl rfl

/-- Settles O38: the three are one frame at three widths. -/
theorem storeResults : Obligations.StoreResults := by
  rintro s rs2 rs1 imm ea rfl
  exact ⟨storeRule_of_storeOp rfl, storeRule_of_storeOp rfl, storeRule_of_storeOp rfl⟩

end Sys2Proof.Machine
end

section
/-! Conditional branches (44_branch.md R250 to R256): each is the common frame at its condition. -/

open Sys2Proof.Claims

namespace Sys2Proof.Machine

/-! The six conditions as the comparisons of the statement (R251 to R256). -/

theorem condEq_iff (a b : Word) : condEq a b = true ↔ a = b := beq_iff_eq

theorem condNe_iff (a b : Word) : condNe a b = true ↔ a ≠ b := by
  rw [condNe, Bool.not_eq_true', beq_eq_false_iff_ne]

theorem condLt_iff (a b : Word) : condLt a b = true ↔ a.toInt < b.toInt := decide_eq_true_iff

theorem condGe_iff (a b : Word) : condGe a b = true ↔ ¬ a.toInt < b.toInt := by
  rw [condGe, ltSigned, Bool.not_eq_true', decide_eq_false_iff_not]

theorem condLtu_iff (a b : Word) : condLtu a b = true ↔ a.toNat < b.toNat := decide_eq_true_iff

theorem condGeu_iff (a b : Word) : condGeu a b = true ↔ ¬ a.toNat < b.toNat := by
  rw [condGeu, ltUnsigned, Bool.not_eq_true', decide_eq_false_iff_not]

section
variable {s : State} {i : Instr} {cond : Word → Word → Bool} {rs1 rs2 : RegIdx} {target : BitVec 13}

/-- A branch whose condition holds transfers to its absolute target (R250, D1). -/
theorem branchOp_of_cond (hc : cond (s.readReg rs1) (s.readReg rs2) = true) :
    s.branchOp i cond rs1 rs2 target = s.jumpTo i (target.signExtend 32) s := if_pos hc

/-- A branch whose condition does not hold advances, whatever its target is (R250). -/
theorem branchOp_of_not_cond (hc : ¬ cond (s.readReg rs1) (s.readReg rs2) = true) :
    s.branchOp i cond rs1 rs2 target = .next s.advancePc := if_neg hc

/-- An instruction that is executed as a branch meets the rule of its condition `c`, by the two answers of a transfer
(R250, D4). -/
theorem branchRule_of_branchOp {c : Prop} (hexec : exec i s = s.branchOp i cond rs1 rs2 target)
    (hcond : cond (s.readReg rs1) (s.readReg rs2) = true ↔ c) : BranchRule s i c (target.signExtend 32) where
  taken hc hal :=
    ⟨_, hexec.trans ((branchOp_of_cond (hcond.2 hc)).trans (jumpTo_aligned s i _ s hal)), onlyPc_setPc s _⟩
  misaligned hc hmis := hexec.trans ((branchOp_of_cond (hcond.2 hc)).trans (jumpTo_misaligned s i _ s hmis))
  notTaken hc := ⟨_, hexec.trans (branchOp_of_not_cond (mt hcond.1 hc)), onlyPc_advancePc s⟩

end

/-- Settles O39: the six are one frame at six conditions. -/
theorem branchResults : Obligations.BranchResults := by
  rintro s rs1 rs2 target a b rfl rfl
  refine ⟨?beq, ?bne, ?blt, ?bge, ?bltu, ?bgeu⟩
  case beq => exact branchRule_of_branchOp rfl (condEq_iff _ _)
  case bne => exact branchRule_of_branchOp rfl (condNe_iff _ _)
  case blt => exact branchRule_of_branchOp rfl (condLt_iff _ _)
  case bge => exact branchRule_of_branchOp rfl (condGe_iff _ _)
  case bltu => exact branchRule_of_branchOp rfl (condLtu_iff _ _)
  case bgeu => exact branchRule_of_branchOp rfl (condGeu_iff _ _)

end Sys2Proof.Machine
end

section
/-! Unconditional jumps (45_jump.md R260 to R262): both are the common transfer after the link is written. -/

open Sys2Proof.Claims

namespace Sys2Proof.Machine

/-- An instruction that is executed as a transfer to `target` after linking rd meets the jump rule of that target, by the
two answers of a transfer (R260, D4). -/
theorem jumpRule_of_jumpTo {s : State} {i : Instr} {rd : RegIdx} {target : Word}
    (hexec : exec i s = s.jumpTo i target (s.writeReg rd s.nextPc)) : JumpRule s i rd target where
  aligned hal := ⟨_, hexec.trans (jumpTo_aligned s i target _ hal), writesReg_setPc s rd _ target⟩
  misaligned hmis := hexec.trans (jumpTo_misaligned s i target _ hmis)

/-- Settles O40: jal transfers to its absolute target, jalr to its effective address, which is computed in the state before
the link is written. -/
theorem jumpResults : Obligations.JumpResults := by
  intro s rd rs1 target imm
  refine ⟨?jal, ?jalr⟩
  case jal => exact jumpRule_of_jumpTo rfl
  case jalr => exact jumpRule_of_jumpTo rfl

end Sys2Proof.Machine
end

section
/-! The upper-immediate instruction (46_upper_immediate.md R270). -/

namespace Sys2Proof.Machine

/-- The upper immediate, a field over twelve zero bits, is the field shifted left by 12 (R270). -/
theorem upperImm_eq_shiftLeft (imm : BitVec 20) : upperImm imm = imm.setWidth 32 <<< 12 := by
  calc upperImm imm
      _ = (imm ++ 0#12).setWidth 32 := (BitVec.setWidth_eq _).symm
      _ = imm.setWidth 32 <<< 12 ||| (0#12).setWidth 32 := BitVec.setWidth_append_eq_shiftLeft_setWidth_or
      _ = imm.setWidth 32 <<< 12 := BitVec.or_zero

/-- Settles O41: lui writes the upper immediate to rd and advances pc (D19). -/
theorem luiResult : Obligations.LuiResult := by
  intro s rd imm
  rw [← upperImm_eq_shiftLeft]
  exact ⟨_, rfl, writesReg_advancePc s rd (upperImm imm)⟩

end Sys2Proof.Machine
end

section
/-! A fetched word that does not decode (60_exceptions.md R302, R303). -/

namespace Sys2Proof

/-- A word of another opcode than CUSTOM_OPCODE fails to decode in one way only (R118, R302). -/
theorem decode_error_of_ne_custom {custom : Opcode} {w : Word} {k : DecodeFault} (hc : opcodeOf w ≠ custom)
    (h : decode custom w = .error k) : k = .unsupportedOpcode := by
  rw [decode, if_neg hc] at h
  split_ifs at h
  · unfold decodeOp at h; split_ifs at h <;> (cases h; rfl)
  · unfold decodeOpImm at h; split_ifs at h <;> (cases h; rfl)
  · unfold decodeLoad at h; split_ifs at h; cases h; rfl
  · unfold decodeStore at h; split_ifs at h; cases h; rfl
  · unfold decodeBranch at h; split_ifs at h; cases h; rfl
  -- A jalr word with another funct3, and a word of no major opcode.
  all_goals cases h; rfl

namespace Machine

/-- The fault kind of a word that does not decode, by its opcode (R118, R302, R303). -/
theorem faultOfDecode_of_error {custom : Opcode} {w : Word} {k : DecodeFault} (h : decode custom w = .error k) :
    faultOfDecode k = if opcodeOf w = custom then .unsupportedCustomOp else .unsupportedOpcode := by
  split
  case isTrue hc =>
    rw [decode_custom hc] at h
    rw [decodeCustom_error h]; rfl
  case isFalse hc => rw [decode_error_of_ne_custom hc h]; rfl

/-- Settles O11: the step faults with the kind of the decoder's error, which the opcode alone gives. -/
theorem stepFaultsOnUndecodableWord : Obligations.StepFaultsOnUndecodableWord := by
  intro s w k hrun hfetch hdec
  rw [step_of_decode_error hrun hfetch hdec, faultOfDecode_of_error hdec]
  rfl

end Machine

end Sys2Proof
end

section
/-! Why an instruction faults, and when it completes (60_exceptions.md R301, R304, R305, R308). -/

namespace Sys2Proof.Machine

/-- The faults an instruction `i` can raise in `s`; the counterpart of `ExecEffect`, and the index is the fault. -/
inductive ExecFault (s : State) (i : Instr) : Fault → Prop where
  /-- A transfer to an address that is no multiple of 4 (R304). -/
  | target (u : Word) (ht : transferTarget s i = some u) (hmis : u.toNat % 4 ≠ 0) :
      ExecFault s i (.faulted .misalignedTarget s.pc (encode s.customOpcode i))
  /-- A data access that its check stops (R63, R64, R305). -/
  | access (ea : Word) (n : Width) (k : FaultKind) (ha : accessOf s i = some (ea, n)) (hc : s.checkAccess ea n = some k) :
      ExecFault s i (.faulted k s.pc (encode s.customOpcode i))

section
variable {s : State} {i : Instr} {f : Fault} {n : Width} {rs1 rs2 : RegIdx} {imm : BitVec 12}

theorem execFault_of_loadOp {signed : Bool} {rd : RegIdx} (h : s.loadOp i n signed rd rs1 imm = .fault f)
    (ha : accessOf s i = some (s.effAddr rs1 imm, n)) : ExecFault s i f := by
  obtain ⟨k, hc, rfl⟩ := loadOp_fault h
  exact .access _ n k ha hc

theorem execFault_of_storeOp (h : s.storeOp i n rs2 rs1 imm = .fault f)
    (ha : accessOf s i = some (s.effAddr rs1 imm, n)) : ExecFault s i f := by
  obtain ⟨k, hc, rfl⟩ := storeOp_fault h
  exact .access _ n k ha hc

theorem execFault_of_jumpTo {u : Word} {after : State} (h : s.jumpTo i u after = .fault f)
    (ht : transferTarget s i = some u) : ExecFault s i f := by
  obtain ⟨hmis, rfl⟩ := jumpTo_fault h
  exact .target u ht hmis

/-- A branch's target is what it transfers to when its condition holds; only then can the branch fault (R250). -/
theorem execFault_of_branchOp {cond : Word → Word → Bool} {target : BitVec 13}
    (h : s.branchOp i cond rs1 rs2 target = .fault f)
    (ht : cond (s.readReg rs1) (s.readReg rs2) = true → transferTarget s i = some (branchTarget target)) :
    ExecFault s i f := by
  obtain ⟨hc, hmis, rfl⟩ := branchOp_fault h
  exact .target _ (ht hc) hmis

end

/-- Every instruction that faults has one of the two causes. -/
theorem exec_fault {i : Instr} {s : State} {f : Fault} (h : exec i s = .fault f) : ExecFault s i f := by
  cases i
  case add | sub | sll | slt | sltu | xor | srl | sra | or | and | addi | slti | sltiu | xori | ori | andi | slli | srli
      | srai | lui | halt | print => cases h
  case lb | lh | lw | lbu | lhu => exact execFault_of_loadOp h rfl
  case sb | sh | sw => exact execFault_of_storeOp h rfl
  case jal | jalr => exact execFault_of_jumpTo h rfl
  case beq => exact execFault_of_branchOp h fun hc => if_pos ((condEq_iff _ _).1 hc)
  case bne => exact execFault_of_branchOp h fun hc => if_pos ((condNe_iff _ _).1 hc)
  case blt => exact execFault_of_branchOp h fun hc => if_pos ((condLt_iff _ _).1 hc)
  case bge => exact execFault_of_branchOp h fun hc => if_pos (Int.not_lt.1 ((condGe_iff _ _).1 hc))
  case bltu => exact execFault_of_branchOp h fun hc => if_pos ((condLtu_iff _ _).1 hc)
  case bgeu => exact execFault_of_branchOp h fun hc => if_pos (Nat.not_lt.1 ((condGeu_iff _ _).1 hc))

/-- What a data access that its check stops has violated, by the kind of fault: alignment is tested first (R63, R64,
R308). -/
theorem checkAccess_eq_some {s : State} {ea : Word} {n : Width} {k : FaultKind} (h : s.checkAccess ea n = some k) :
    (k = .misalignedAccess ∧ ea.toNat % widthBytes n ≠ 0) ∨
    (k = .memoryOutOfRange ∧ ea.toNat % widthBytes n = 0 ∧ s.dmemSize < ea.toNat + widthBytes n) := by
  rw [State.checkAccess] at h
  split_ifs at h with hmis hout
  · cases h; exact .inl ⟨rfl, hmis⟩
  · cases h; exact .inr ⟨rfl, not_not.1 hmis, hout⟩

/-- Settles O14: a fault comes from a transfer or from the check of a data access. -/
theorem execFaultKinds : Obligations.ExecFaultKinds := by
  intro i s f h
  cases exec_fault h with
  | target u ht hmis => exact .inl ⟨rfl, u, ht, hmis⟩
  | access ea n k ha hc =>
    obtain ⟨rfl, hmis⟩ | ⟨rfl, hal, hout⟩ := checkAccess_eq_some hc
    · exact .inr (.inl ⟨rfl, ea, n, ha, hmis⟩)
    · exact .inr (.inr ⟨rfl, ea, n, ha, hal, hout⟩)

/-- An instruction whose data access does not pass its check faults (R63, R64). -/
theorem exec_of_access_fault {i : Instr} {s : State} {ea : Word} {n : Width} {k : FaultKind}
    (ha : accessOf s i = some (ea, n)) (hc : s.checkAccess ea n = some k) :
    exec i s = .fault (.faulted k s.pc (encode s.customOpcode i)) := by
  cases i
  case lb | lh | lw | lbu | lhu => cases ha; exact loadOp_of_fault hc
  case sb | sh | sw => cases ha; exact storeOp_of_fault hc
  all_goals cases ha

/-- The data access of an instruction that completes has passed its check. -/
theorem checkAccess_of_exec_next {i : Instr} {s t : State} {ea : Word} {n : Width} (h : exec i s = .next t)
    (ha : accessOf s i = some (ea, n)) : s.checkAccess ea n = none := by
  cases hc : s.checkAccess ea n with
  | none => rfl
  | some k => cases h.symm.trans (exec_of_access_fault ha hc)

/-- An instruction that completes transfers to a multiple of 4, if it transfers at all (R250, R260, D4). -/
theorem target_aligned_of_exec_next {i : Instr} {s t : State} {u : Word} (h : exec i s = .next t)
    (ht : transferTarget s i = some u) : u.toNat % 4 = 0 := by
  cases exec_effect h with
  | register _ _ _ _ _ _ hnone | fallThrough _ _ _ _ hnone | store _ _ _ _ _ _ _ hnone => cases ht.symm.trans hnone
  | link _ _ v _ _ _ _ hsome hal | taken v _ _ _ _ hsome hal => cases ht.symm.trans hsome; exact hal
  | halted hi | printed _ hi => subst hi; cases ht

/-- Settles O15: an instruction that completes has passed both tests, and one that faults has failed one of them. -/
theorem execCompletesExactly : Obligations.ExecCompletesExactly := by
  refine fun i s => ⟨?completes, ?passes⟩
  case completes =>
    rintro ⟨t, h⟩
    exact ⟨fun ea n ha => (checkAccess_eq_none s ea n).1 (checkAccess_of_exec_next h ha),
      fun u => target_aligned_of_exec_next h⟩
  case passes =>
    rintro ⟨haccess, htarget⟩
    cases h : exec i s with
    | next t => exact ⟨t, rfl⟩
    | refused r => exact absurd h (exec_ne_refused i s r)
    | fault f =>
      cases exec_fault h with
      | target u ht hmis => exact absurd (htarget u ht) hmis
      | access ea n k ha hc => cases hc.symm.trans ((checkAccess_eq_none s ea n).2 (haccess ea n ha))

end Sys2Proof.Machine
end

section
/-! The custom operations halt and print (47_custom.md R275 to R277). -/

namespace Sys2Proof.Machine

/-- A machine whose halt flag is set has no further step (R171, R172, D33). -/
theorem step_of_haltFlag {s : State} (h : s.haltFlag = true) : step s = .fault .halted :=
  step_of_isHalted ((isHalted_iff s).2 (.inl h))

/-- Settles O42: the word and the next state are the model's own, and the flag halts the machine. -/
theorem haltResult : Obligations.HaltResult := fun _ => ⟨rfl, rfl, step_of_haltFlag rfl⟩

/-- Settles O43: the word and the next state are the model's own. -/
theorem printResult : Obligations.PrintResult := fun _ _ => ⟨rfl, rfl⟩

/-- Settles O18: pc 0 lies before the end of a program of one word, and that word is halt's. -/
theorem haltProgramHaltsInOneStep : Obligations.HaltProgramHaltsInOneStep := by
  intro size init s hload
  obtain ⟨-, hs⟩ := load_some hload
  have hrun : s.isHalted = false := by rw [hs]; rfl
  have hfetch : s.fetch = some 0x0000000B#32 := by rw [hs]; simp [State.fetch, State.reset]
  have hdec : decode s.customOpcode 0x0000000B#32 = .ok .halt := by rw [hs]; rfl
  have hpc : s.pc = 0#32 := by rw [hs]; rfl
  obtain ⟨-, hexec, hend⟩ := haltResult s
  exact ⟨hrun, _, (step_of_decode hrun hfetch hdec).trans hexec, hpc, rfl, rfl, hend⟩

end Sys2Proof.Machine
end
